-- ==== Sys2Proof/Word.lean ====
section
/-! DEFINITION. The plainest data of the block: bytes, Tokens and 11-bit group values. -/

namespace Sys2Proof

/-- One byte of a Token, of the entropy or of a digest. -/
abbrev Byte := BitVec 8

/-- One word as the block sees it: a finite byte string, compared exactly (20_memory.md R52, R56). -/
abbrev Token := List Byte

/-- The value of an 11-bit group, which is an index into the wordlist (R7, R53). -/
abbrev Index := Fin 2048

end Sys2Proof
end

