-- ==== Sys2Proof/Syntax.lean ====
section
/-! DEFINITION. The 20 commands (30_encoding.md R85) and the lines of a host program (R93). -/

namespace Sys2Proof

/-- One constructor per row of spec/opcode_table.json. A command has no operand field (R80, R88). -/
inductive Instr where
  | enc | enca | dec | rup32
  | obfU32 | obfS32 | obfU64 | obfS64
  | deobfU32 | deobfS32 | deobfU64 | deobfS64
  | obfencU32 | obfencS32 | obfencU64 | obfencS64
  | decdeobfU32 | decdeobfS32 | decdeobfU64 | decdeobfS64
  deriving DecidableEq, Repr

/-- The four permutation engines (R1, R146). -/
inductive Engine where
  | u32 | s32 | u64 | s64
  deriving DecidableEq, Repr

/-- Why a byte is no command (R86). -/
inductive DecodeReject where
  /-- `ZERO` (bits 5:3) is not 000. -/
  | zeroField
  /-- `CLASS` is 11. -/
  | reservedClass
  /-- `CLASS` is 00 and `FUNC` is 100 to 111. -/
  | reservedFunc
  deriving DecidableEq, Repr

/-- The operand registers, by name (10_state.md R21 to R24). -/
inductive OperandReg where
  | vin | bwin | x32in | x64in | winlen | win
  deriving DecidableEq, Repr

/-- `WR reg, value` (R93). `WR WIN` writes the buffer and WINLEN together, `WR WINLEN` the count alone (10_state.md
R42). Negative values of VIN cannot be written (R21). -/
inductive OperandWrite where
  | vin (n : Nat)
  | bwin (z : Int)
  | x32in (p : BitVec 32)
  | x64in (p : BitVec 64)
  | win (ts : List Token)
  | winlen (n : Nat)
  deriving DecidableEq, Repr

/-- What a host can name in `RD reg` (10_state.md R42, 20_memory.md R50). -/
inductive HostReg where
  | vin | bwin | x32in | x64in | win | winlen
  | winAt (j : Nat)
  | status | vout | bwout | x32out | x64out | wout | woutlen
  | woutAt (j : Nat)
  | phase | pinv32 | pinv64 | pm32 | pm64
  | xk (k : Engine)
  | ak (k : Engine)
  /-- An entry of the word ROM: its index has 11 bits, so every one exists (20_memory.md R50, R53). -/
  | wromAt (g : Index)
  deriving DecidableEq, Repr

/-- One line of a host program (30_encoding.md R93; the reset is 70_reset_and_hazards.md R233). A label is
the number of the line it stands before, counted from 0. -/
inductive HostLine where
  /-- `WR reg, value`. -/
  | wr (w : OperandWrite)
  /-- `<mnemonic>`: issues that command's byte. -/
  | cmd (i : Instr)
  /-- `ISSUE 0xNN`: issues the raw byte. -/
  | issue (b : Byte)
  /-- `RD reg`. -/
  | rd (r : HostReg)
  /-- `IF STATUS != OK GOTO label`. -/
  | ifNotOk (label : Nat)
  /-- `GOTO label`. -/
  | goto (label : Nat)
  /-- The host resets the block (R215, R233). -/
  | reset
  deriving DecidableEq, Repr

end Sys2Proof
end

