-- ==== Sys2Proof/Decode.lean ====
section
/-! DEFINITION. The command byte: decoder and encoder (30_encoding.md R80 to R87). -/

namespace Sys2Proof

/-- `CLASS`, bits 7:6 (R81). -/
def classField (b : Byte) : BitVec 2 := b.extractLsb' 6 2

/-- `ZERO`, bits 5:3 (R81). -/
def zeroField (b : Byte) : BitVec 3 := b.extractLsb' 3 3

/-- `FUNC`, bits 2:0 (R81). -/
def funcField (b : Byte) : BitVec 3 := b.extractLsb' 0 3

/-- Class 00 (R82). -/
def decodeCodec (func : BitVec 3) : Except DecodeReject Instr :=
  match func.toNat with
  | 0 => .ok .enc
  | 1 => .ok .enca
  | 2 => .ok .dec
  | 3 => .ok .rup32
  | _ => .error .reservedFunc

/-- Class 01: `DIR = FUNC[2]`, `W64 = FUNC[1]`, `SGN = FUNC[0]` (R83). -/
def decodePermutation (dir w64 sgn : Bool) : Instr :=
  match dir, w64, sgn with
  | false, false, false => .obfU32
  | false, false, true => .obfS32
  | false, true, false => .obfU64
  | false, true, true => .obfS64
  | true, false, false => .deobfU32
  | true, false, true => .deobfS32
  | true, true, false => .deobfU64
  | true, true, true => .deobfS64

/-- Class 10, with the fields of class 01 (R83). -/
def decodeComposed (dir w64 sgn : Bool) : Instr :=
  match dir, w64, sgn with
  | false, false, false => .obfencU32
  | false, false, true => .obfencS32
  | false, true, false => .obfencU64
  | false, true, true => .obfencS64
  | true, false, false => .decdeobfU32
  | true, false, true => .decdeobfS32
  | true, true, false => .decdeobfU64
  | true, true, true => .decdeobfS64

/-- The decoder, total on all 256 bytes (R86). -/
def decode (b : Byte) : Except DecodeReject Instr :=
  if zeroField b ≠ 0 then .error .zeroField
  else
    let func := funcField b
    match (classField b).toNat with
    | 0 => decodeCodec func
    | 1 => .ok (decodePermutation (func.getLsbD 2) (func.getLsbD 1) (func.getLsbD 0))
    | 2 => .ok (decodeComposed (func.getLsbD 2) (func.getLsbD 1) (func.getLsbD 0))
    | _ => .error .reservedClass

/-- The opcode map, read from command to byte (R85). -/
def encode : Instr → Byte
  | .enc => 0x00
  | .enca => 0x01
  | .dec => 0x02
  | .rup32 => 0x03
  | .obfU32 => 0x40
  | .obfS32 => 0x41
  | .obfU64 => 0x42
  | .obfS64 => 0x43
  | .deobfU32 => 0x44
  | .deobfS32 => 0x45
  | .deobfU64 => 0x46
  | .deobfS64 => 0x47
  | .obfencU32 => 0x80
  | .obfencS32 => 0x81
  | .obfencU64 => 0x82
  | .obfencS64 => 0x83
  | .decdeobfU32 => 0x84
  | .decdeobfS32 => 0x85
  | .decdeobfU64 => 0x86
  | .decdeobfS64 => 0x87

/-- The byte of a table row: its low `nbits` bits are `w`'s and the bits above are 0. -/
def tableByte (nbits w : Nat) : Byte := BitVec.ofNat 8 (w % 2 ^ nbits)

/-- The command the decoder reads from a table row's bits. Every command is one byte (R80, R87), so a row of
more than eight bits is none. -/
def decodeTableWord (nbits w : Nat) : Option Instr :=
  if nbits ≤ 8 then (decode (tableByte nbits w)).toOption else none

end Sys2Proof
end

