-- ==== Sys2Proof/WellFormed.lean ====
section
/-! DEFINITION. The checks on syntax: a command has none to make, a host program's labels stand in it, a
wordlist has 2048 pairwise different entries. -/

namespace Sys2Proof

/-- A command carries no field that could be wrong (30_encoding.md R80, R88). -/
def Instr.wellFormed : Instr → Bool
  | .enc | .enca | .dec | .rup32 => true
  | .obfU32 | .obfS32 | .obfU64 | .obfS64 => true
  | .deobfU32 | .deobfS32 | .deobfU64 | .deobfS64 => true
  | .obfencU32 | .obfencS32 | .obfencU64 | .obfencS64 => true
  | .decdeobfU32 | .decdeobfS32 | .decdeobfU64 | .decdeobfS64 => true

/-- A jump goes to a line of the program or to the place after its last line (R93: `fail:` at the end). -/
def HostLine.wellFormed (lines : Nat) : HostLine → Bool
  | .ifNotOk label | .goto label => decide (label ≤ lines)
  | .wr _ | .issue _ | .rd _ | .reset => true
  | .cmd i => i.wellFormed

/-- Every line of a host program is well formed. -/
def programWellFormed (p : List HostLine) : Bool :=
  p.all (HostLine.wellFormed p.length)

/-- A wordlist has exactly 2048 entries (70_reset_and_hazards.md R222, item 1). -/
def wordlistSized (ws : List Token) : Bool :=
  ws.length == 2048

/-- A wordlist's entries are pairwise different (R222, item 1). -/
def wordlistDistinct (ws : List Token) : Bool :=
  decide ws.Nodup

end Sys2Proof
end

