-- ==== Sys2Proof/Config.lean ====
section
/-! DEFINITION. What an instance fixes (00_scope.md R8), as one constant without a body, and the free
values: the initialisation's time, the word ROM after a fatal initialisation. -/

namespace Sys2Proof

/-- A word list that only shows that the type `Rom` has a member, as an `opaque` constant needs. Nothing can
see it: the wordlist's content is in no source (91_not_in_source.md N1). -/
def Rom.placeholder : List Token :=
  (List.range 2048).map fun i => [BitVec.ofNat 8 (i / 256), BitVec.ofNat 8 i]

theorem Rom.placeholder_distinct : Rom.placeholder.Nodup := by
  refine List.Nodup.map_on ?_ List.nodup_range
  intro a ha b hb h
  simp only [List.mem_range] at ha hb
  simp only [List.cons.injEq, and_true] at h
  have high := congrArg BitVec.toNat h.1
  have low := congrArg BitVec.toNat h.2
  simp only [BitVec.toNat_ofNat] at high low
  omega

/-- A wordlist: exactly 2048 pairwise different Tokens (R8, R51, R222). The type excludes any other list, as
93_implementation_defined.md U12 asks. -/
structure Rom where
  words : List Token := Rom.placeholder
  size : wordlistSized words = true := by simp [wordlistSized, Rom.placeholder]
  distinct : wordlistDistinct words = true := by simp [wordlistDistinct, Rom.placeholder_distinct]
  deriving DecidableEq, Repr, Inhabited

/-- The XOR mask and the addend of one engine of width `w` (10_state.md R41). -/
structure EngineConst (w : Nat) where
  xk : BitVec w
  ak : BitVec w
  deriving DecidableEq, Repr, Inhabited

/-- The configuration record `Cfg` (R8). It is no state. -/
structure Cfg where
  /-- `WORD`. -/
  word : Rom
  /-- `DLEN / 8`: the digest's length in bytes, positive. -/
  digestBytes : ℕ+
  /-- `H`: total, deterministic, with a digest of `DLEN / 8` bytes (41_checksum.md R131). -/
  hash : List Byte → Vector Byte digestBytes
  /-- `CKX`: the `ENT / 32` checksum bits where the digest is too short (R134). -/
  ckx : (ent : Nat) → List Byte → BitVec (ent / 32)
  /-- `P`. The block checks that it is odd, not that it is prime (70_reset_and_hazards.md R219). -/
  prime : Nat
  /-- `XK[k]` and `AK[k]` of the four engines, any patterns (92_eei_decisions.md D12). -/
  u32 : EngineConst 32
  s32 : EngineConst 32
  u64 : EngineConst 64
  s64 : EngineConst 64
  deriving Inhabited

/-- `DLEN`, the digest's length in bits: a positive multiple of 8 (R8). -/
def Cfg.dlen (c : Cfg) : Nat := 8 * c.digestBytes

/-- The instance's configuration, fixed for its life (10_state.md R20). It has no body, so what is proved
with it holds for every configuration. -/
opaque Config.cfg : Cfg

/-- How many actions of the host come before the initialisation step after the `n`-th reset: no source
says, so it is a free value (DESIGN CHOICE, safe; log entry 3). -/
opaque Config.initWait : Nat → Nat

/-- What WROM holds in phase `FATAL` after the `n`-th reset: unspecified (10_state.md R46), any value
(93_implementation_defined.md U11), so a free value (DESIGN CHOICE, safe; log entry 17). -/
opaque Config.fatalWrom : Nat → Vector Token 2048

end Sys2Proof
end

