-- ==== Sys2Proof/Machine/Bits.lean ====
section
/-! DEFINITION. The notation of 00_scope.md: bit length, bytes, signed readings. -/

namespace Sys2Proof.Machine

/-- `bitlen(v)`: 0 for 0, otherwise the number of bits of `v` (00_scope.md R9, 90_conflicts.md C7). -/
def bitlen (v : Nat) : Nat := if v = 0 then 0 else v.log2 + 1

/-- `bytesBE(v, n)`: `n` bytes, the most significant first (R11). -/
def bytesBE (v n : Nat) : List Byte :=
  (List.range n).map fun j => BitVec.ofNat 8 (v / 2 ^ (8 * (n - 1 - j)))

/-- `intBE(B)`: the number whose bytes, most significant first, are `B` (R11). -/
def intBE (bs : List Byte) : Nat := bs.foldl (fun a b => a * 256 + b.toNat) 0

/-- `toS_W(p)`: the two's-complement reading of a pattern (R9, 10_state.md R32). -/
def toS {w : Nat} (p : BitVec w) : Int :=
  if p.toNat < 2 ^ (w - 1) then (p.toNat : Int) else (p.toNat : Int) - 2 ^ w

/-- `toU_W(s)`: the pattern of `s mod 2^W` (R9). -/
def toU (w : Nat) (s : Int) : BitVec w := BitVec.ofInt w s

end Sys2Proof.Machine
end

