-- ==== Sys2Proof/Machine/Checksum.lean ====
section
/-! DEFINITION. The checksum unit (41_checksum.md). -/

namespace Sys2Proof.Machine

/-- The digest of `bs` read as a `DLEN`-bit big-endian number (R133). -/
def digest (c : Cfg) (bs : List Byte) : Nat := intBE (c.hash bs).toList

/-- `CK(ENT, B)`: the `ENT/32` most significant bits of the digest (R133), or `CKX` where the digest has too
few bits (R134). -/
def ck (c : Cfg) (ent : Nat) (bs : List Byte) : Nat :=
  if ent / 32 ≤ c.dlen then digest c bs / 2 ^ (c.dlen - ent / 32) else (c.ckx ent bs).toNat

end Sys2Proof.Machine
end

