-- ==== Sys2Proof/Machine/State.lean ====
section
/-! DEFINITION. The state of one instance (10_state.md R20), the host that drives it (30_encoding.md R93), the
reasons a step can stop, and the state at reset (R46). -/

namespace Sys2Proof.Machine

/-- Why the machine stops. Both are faults of the host program, and both are safe: the model stops where the
spec gives no value. -/
inductive Fault where
  /-- Raised by a command that reads an operand register the host has not written since reset
  (10_state.md R47: "the model must fault the host program, not pick zero"). Safe. -/
  | unwrittenOperand (r : OperandReg)
  /-- Raised by `RD` of a register or entry that holds no value (10_state.md R34, 20_memory.md R57,
  60_exceptions.md R206). Safe. -/
  | readNoValue (r : HostReg)
  deriving DecidableEq, Repr

/-- Why the model gives no meaning. No step of this model answers one. -/
inductive Refusal where
  /-- Raised by an arm of `exec` whose command has no meaning yet; there is none. Safe. -/
  | notModelled (mnemonic : String)
  deriving DecidableEq, Repr

/-- The error kinds (60_exceptions.md R190). -/
inductive ErrKind where
  | invalidBitWidth
  | invalidWord
  | invalidChecksum
  /-- Reserved for an adapter; the block never raises it (R189). -/
  | invalidData
  | narrowOverflow
  | illegalCommand
  deriving DecidableEq, Repr

/-- What `STATUS` says of the last command (10_state.md R26). -/
inductive Status where
  | ok
  | error (k : ErrKind)
  deriving DecidableEq, Repr

/-- The registers that initialisation derives (R39 to R41) and the word ROM (20_memory.md R51). -/
structure ConfigRegs where
  rom : Rom
  pm32 : BitVec 32
  pm64 : BitVec 64
  pinv32 : BitVec 32
  pinv64 : BitVec 64
  u32 : EngineConst 32
  s32 : EngineConst 32
  u64 : EngineConst 64
  s64 : EngineConst 64
  deriving DecidableEq, Repr

/-- `PHASE` (10_state.md R38). The derived registers hold values in `READY` and only there, and so
do the words of WROM that a rule gives (R46). -/
inductive Phase where
  | reset
  | ready (regs : ConfigRegs)
  | fatal
  deriving DecidableEq, Repr

/-- The operand registers (R21 to R24); `none` is the spec's "no value" (R46, R47). `win` is
the buffer, at each index what the host last wrote there, `winlen` the count of its entries that commands and reads
see (R24). -/
structure Operands where
  vin : Option Nat := none
  bwin : Option Int := none
  x32in : Option (BitVec 32) := none
  x64in : Option (BitVec 64) := none
  win : List Token := []
  winlen : Option Nat := none
  deriving DecidableEq, Repr

/-- The result registers other than `STATUS` (R27 to R30); `none` is the spec's `none`. `WOUTLEN` is the
number of entries of `wout`, and `none` with it. -/
structure Results where
  vout : Option Nat := none
  bwout : Option Nat := none
  x32out : Option (BitVec 32) := none
  x64out : Option (BitVec 64) := none
  wout : Option (List Token) := none
  deriving DecidableEq, Repr

/-- What `RD` gives the host. -/
inductive HostValue where
  | nat (n : Nat)
  | int (z : Int)
  | bits32 (p : BitVec 32)
  | bits64 (p : BitVec 64)
  | token (t : Token)
  | tokens (ts : List Token)
  /-- The 3-bit code of `STATUS`. -/
  | statusCode (c : BitVec 3)
  /-- The 2-bit code of `PHASE`. -/
  | phaseCode (c : BitVec 2)
  deriving DecidableEq, Repr

/-- The host: its program, the line it stands at, and what it has read, newest first. No state of the block
(log entry 5). -/
structure HostSide where
  program : List HostLine := []
  line : Nat := 0
  seen : List HostValue := []
  deriving DecidableEq, Repr

/-- One MNC instance and its host. -/
structure State where
  ops : Operands
  status : Status
  res : Results
  phase : Phase
  host : HostSide
  /-- The model's own: how many host actions still come before the initialisation step (log entry 3). -/
  initWait : Nat
  /-- The model's own: how many times the host has reset the block, so that each reset takes a fresh free
  value (log entry 3). -/
  resets : Nat
  deriving DecidableEq, Repr

/-- Every piece of state at its "at reset" value (10_state.md R46), with a host that has no line yet. -/
def State.reset : State where
  ops := {}
  status := .ok
  res := {}
  phase := .reset
  host := {}
  initWait := Config.initWait 0
  resets := 0

end Sys2Proof.Machine
end

