-- ==== Sys2Proof/Machine/Memory.lean ====
section
/-! DEFINITION. The three Token spaces (20_memory.md R50): forward lookup, reverse lookup, reads and writes. -/

namespace Sys2Proof.Machine

/-- A wordlist has 2048 entries, said as an equation. -/
theorem rom_length (rom : Rom) : rom.words.length = 2048 := by
  simpa [wordlistSized] using rom.size

/-- `MemRead(WROM:g, 1)` for an 11-bit group value: it has no failing case (R53). -/
def romWord (rom : Rom) (g : Index) : Token :=
  rom.words.get (g.cast (rom_length rom).symm)

/-- `INDEX(t)`: the entry that holds exactly the Token `t`, or `none` (R55, R56). -/
def romIndex (rom : Rom) (t : Token) : Option Index :=
  match rom.words.idxOf? t with
  | some i => if h : i < 2048 then some ⟨i, h⟩ else none
  | none => none

/-- The name of a Token space (R50). -/
inductive Space where
  | wrom | win | wout
  deriving DecidableEq, Repr

/-- The entries of a space that hold a value, the entry at index 0 first; `none` where the space holds none. WIN has
the entries below WINLEN (R50, R57); WROM in `FATAL` has entries that no rule gives (10_state.md R46). -/
def State.entries (s : State) : Space → Option (List Token)
  | .wrom =>
    match s.phase with
    | .ready regs => some regs.rom.words
    | .fatal => some (Config.fatalWrom s.resets).toList
    | .reset => none
  | .win => s.ops.winlen.map s.ops.win.take
  | .wout => s.res.wout

/-- `MemRead(SPACE:i, 1)` (R13); `none` where the entry has no value (R57). -/
def State.memRead (s : State) (space : Space) (i : Nat) : Option Token :=
  match s.entries space with
  | some ts => ts[i]?
  | none => none

/-- The host's write of WIN, which writes WINLEN with it (30_encoding.md R93). An entry beyond holds what the host last
wrote there (10_state.md R25; log entry 7). -/
def State.storeWin (s : State) (ts : List Token) : State :=
  { s with ops := { s.ops with win := ts ++ s.ops.win.drop ts.length, winlen := some ts.length } }

/-- The host's write of WINLEN alone; the buffer holds what the host last wrote (10_state.md R25, R42; log entry 7). -/
def State.storeWinlen (s : State) (n : Nat) : State :=
  { s with ops := { s.ops with winlen := some n } }

/-- The memory's form: the word ROM in `READY` has exactly 2048 pairwise different entries
(R50, R51), and WOUT, where it holds values, has a positive multiple of 3 entries (R62), each a word of the
ROM. WIN may hold any Tokens (10_state.md R24). -/
def Memory.wf (s : State) : Bool :=
  match s.phase, s.res.wout with
  | .ready r, some out =>
    wordlistSized r.rom.words && wordlistDistinct r.rom.words && out.length % 3 == 0 && out.length != 0 &&
      out.all r.rom.words.contains
  | .ready r, none => wordlistSized r.rom.words && wordlistDistinct r.rom.words
  | .reset, some _ | .fatal, some _ => false
  | .reset, none | .fatal, none => true

end Sys2Proof.Machine
end

