-- ==== Sys2Proof/Machine/Operands.lean ====
section
/-! DEFINITION. The operand registers: which a command reads, reading one, and the host's writes. -/

namespace Sys2Proof.Machine

/-- The outcome of a step of this machine. -/
abbrev Out := Host.Outcome State Fault Refusal

/-- The operand registers a command reads (10_state.md R31). -/
def Instr.reads : Instr → List OperandReg
  | .enc => [.vin, .bwin]
  | .enca | .rup32 => [.vin]
  | .dec => [.winlen, .win]
  | .obfU32 | .obfS32 | .deobfU32 | .deobfS32 => [.x32in]
  | .obfU64 | .obfS64 | .deobfU64 | .deobfS64 => [.x64in]
  | .obfencU32 | .obfencS32 => [.x32in]
  | .obfencU64 | .obfencS64 => [.x64in]
  | .decdeobfU32 | .decdeobfS32 | .decdeobfU64 | .decdeobfS64 => [.winlen, .win]

/-- Whether the host has written an operand register since reset (R47); of WIN, each entry below WINLEN. -/
def Operands.written (o : Operands) : OperandReg → Bool
  | .vin => o.vin.isSome
  | .bwin => o.bwin.isSome
  | .x32in => o.x32in.isSome
  | .x64in => o.x64in.isSome
  | .winlen => o.winlen.isSome
  | .win => o.winlen.getD 0 ≤ o.win.length

/-- A command reads operand register `r`, whose content is `v`: without a value the host program is at fault
(R47). -/
def readOperand {α : Type} (r : OperandReg) (v : Option α) (body : α → Out) : Out :=
  match v with
  | some a => body a
  | none => .fault (.unwrittenOperand r)

/-- A decoding command reads WINLEN as `n` and WIN:0 up to WIN:(n-1) (40_codec.md R114); an entry that the host has
not written has no value (R47). -/
def readWords (o : Operands) (body : List Token → Out) : Out :=
  readOperand .winlen o.winlen fun n =>
    readOperand .win (if n ≤ o.win.length then some (o.win.take n) else none) body

/-- The host's write of an operand register, accepted in every phase (R42, 70_reset_and_hazards.md R221). -/
def State.writeOperand (s : State) : OperandWrite → State
  | .vin n => { s with ops := { s.ops with vin := some n } }
  | .bwin z => { s with ops := { s.ops with bwin := some z } }
  | .x32in p => { s with ops := { s.ops with x32in := some p } }
  | .x64in p => { s with ops := { s.ops with x64in := some p } }
  | .win ts => s.storeWin ts
  | .winlen n => s.storeWinlen n

end Sys2Proof.Machine
end

