-- ==== Sys2Proof/Machine/Ops.lean ====
section
/-! DEFINITION. What every command shares: the gate of PHASE, ending with results, ending with an error. -/

namespace Sys2Proof.Machine

/-- A command executes in `READY` only; outside it the issue changes nothing (30_encoding.md R84,
70_reset_and_hazards.md R221). -/
def whenReady (s : State) (body : ConfigRegs → Out) : Out :=
  match s.phase with
  | .ready regs => body regs
  | .reset | .fatal => .next s

/-- `raise K`, the block's only exception entry: `STATUS` takes the kind, every other result register is
`none`, nothing else changes and nothing is saved (00_scope.md R14, 60_exceptions.md R195). There is no return
from it: the next command runs normally (R185, R197). -/
def raise (k : ErrKind) (s : State) : State :=
  { s with status := .error k, res := {} }

/-- A command ends well: every result register is set to `none` first and then those in `r` are written, with
`STATUS <- OK` (10_state.md R33). -/
def succeed (r : Results) (s : State) : State :=
  { s with status := .ok, res := r }

/-- How a command ends, from what it computed (R33, R195). -/
def finish (s : State) : Except ErrKind Results → State
  | .ok r => succeed r s
  | .error k => raise k s

/-- A byte that is no command (30_encoding.md R86). -/
def illegalByte (s : State) : Out :=
  whenReady s fun _ => .next (raise .illegalCommand s)

end Sys2Proof.Machine
end

