-- ==== Sys2Proof/Machine/Codec.lean ====
section
/-! DEFINITION. The bit-packing codec: RUP32, ENC, ENCA, DEC (40_codec.md). Each family function takes the
configuration as an argument; a meaning applies it to the instance's own. -/

namespace Sys2Proof.Machine

/-- `rup32(n)`: the smallest positive multiple of 32 that is at least `n` (R100). -/
def rup32 (n : Nat) : Nat := if n = 0 then 32 else 32 * ((n + 31) / 32)

/-- `ent(v, ENT)`: the low `ENT` bits (R103). -/
def entropy (v ent : Nat) : Nat := v % 2 ^ ent

/-- `frame(e, ENT)`: the entropy and, on the least significant side, its checksum (R104, 30_encoding.md R89). -/
def frame (c : Cfg) (e ent : Nat) : Nat := e * 2 ^ (ent / 32) + ck c ent (bytesBE e (ent / 8))

/-- `groups(t, n)`: `n` slices of 11 bits, the most significant first (R105). -/
def groups (t n : Nat) : List Index :=
  (List.range n).map fun i => ⟨t / 2 ^ (11 * (n - 1 - i)) % 2048, Nat.mod_lt _ (by decide)⟩

/-- `join(G)`: the left fold of R106. -/
def join (gs : List Index) : Nat := gs.foldl (fun t g => t * 2048 + g.val) 0

/-- `wordsOf(G)` (R107). -/
def wordsOf (rom : Rom) (gs : List Index) : List Token := gs.map (romWord rom)

/-- `indicesOf(W)`: `none` as soon as one word is unknown (R107, R115). -/
def indicesOf (rom : Rom) : List Token → Option (List Index)
  | [] => some []
  | t :: ts =>
    match romIndex rom t, indicesOf rom ts with
    | some g, some gs => some (g :: gs)
    | _, _ => none

/-- Encode at a valid width: entropy, frame, groups, words (R108 from its third line). -/
def encodeWords (c : Cfg) (rom : Rom) (v ent : Nat) : List Token :=
  wordsOf rom (groups (frame c (entropy v ent) ent) ((ent + ent / 32) / 11))

/-- The width test of ENC: "zero, negative, or not a multiple of 32" (R108, 60_exceptions.md R186). -/
def badWidth (bw : Int) : Bool := decide (bw ≤ 0) || decide (bw % 32 ≠ 0)

/-- The result of ENC (R108). -/
def encResult (c : Cfg) (rom : Rom) (v : Nat) (bw : Int) : Except ErrKind Results :=
  if badWidth bw then .error .invalidBitWidth
  else .ok { wout := some (encodeWords c rom v bw.toNat) }

/-- EncodeAuto: encode at the width `rup32(bitlen(v))` (R111). -/
def encodeAuto (c : Cfg) (rom : Rom) (v : Nat) : List Token :=
  encodeWords c rom v (rup32 (bitlen v))

/-- The body of DEC: word check, count check, split, verification (R114 to R118). It yields the entropy and
its width. -/
def decodeWords (c : Cfg) (rom : Rom) (ws : List Token) : Except ErrKind (Nat × Nat) :=
  match indicesOf rom ws with
  | none => .error .invalidWord
  | some gs =>
    if ws.length = 0 ∨ ws.length % 3 ≠ 0 then .error .invalidWord
    else
      let total := 11 * ws.length
      let ent := total * 32 / 33
      let cs := total / 33
      let e := join gs / 2 ^ cs
      if ck c ent (bytesBE e (ent / 8)) ≠ join gs % 2 ^ cs then .error .invalidChecksum
      else .ok (e, ent)

/-- The result of DEC: `VOUT` and `BWOUT` (R119). -/
def decResult (c : Cfg) (rom : Rom) (ws : List Token) : Except ErrKind Results :=
  match decodeWords c rom ws with
  | .ok (e, ent) => .ok { vout := some e, bwout := some ent }
  | .error k => .error k

/-- RUP32 (R101). -/
def execRup32 (s : State) : Out :=
  whenReady s fun _ => readOperand .vin s.ops.vin fun n =>
    .next (finish s (.ok { bwout := some (rup32 n) }))

/-- ENC under a configuration (R108). Both operands must hold a value for the command to execute (30_encoding.md
R84; log entry 11), then the width is tested before anything else. -/
def encCommand (c : Cfg) (s : State) : Out :=
  whenReady s fun regs => readOperand .vin s.ops.vin fun v => readOperand .bwin s.ops.bwin fun bw =>
    .next (finish s (encResult c regs.rom v bw))

/-- ENC, byte 0x00 (R108). -/
def execEnc (s : State) : Out := encCommand Config.cfg s

/-- ENCA under a configuration (R111). -/
def encaCommand (c : Cfg) (s : State) : Out :=
  whenReady s fun regs => readOperand .vin s.ops.vin fun v =>
    .next (finish s (.ok { wout := some (encodeAuto c regs.rom v) }))

/-- ENCA, byte 0x01 (R111). -/
def execEnca (s : State) : Out := encaCommand Config.cfg s

/-- DEC under a configuration (R114). -/
def decCommand (c : Cfg) (s : State) : Out :=
  whenReady s fun regs => readWords s.ops fun ws =>
    .next (finish s (decResult c regs.rom ws))

/-- DEC, byte 0x02 (R114). -/
def execDec (s : State) : Out := decCommand Config.cfg s

end Sys2Proof.Machine
end

