-- ==== Sys2Proof/Machine/Permutation.lean ====
section
/-! DEFINITION. The permutation engines: OBF.k and DEOBF.k (42_permutation.md). -/

namespace Sys2Proof.Machine

/-- `OBF_k(x)`: multiply, XOR, add, each modulo `2^w` (R150). The product of patterns keeps the low `w` bits of
the exact product, as the rule asks. `deobf` with the inverse multiplier undoes it, and the other way round (R152). -/
def obf {w : Nat} (pm : BitVec w) (k : EngineConst w) (x : BitVec w) : BitVec w :=
  ((x * pm) ^^^ k.xk) + k.ak

/-- `DEOBF_k(y)`: undo the add, the XOR and the multiply (R151); the inverse of `obf` (R152). -/
def deobf {w : Nat} (pinv : BitVec w) (k : EngineConst w) (y : BitVec w) : BitVec w :=
  ((y - k.ak) ^^^ k.xk) * pinv

/-- The forward function of engine U32. -/
def obfOfU32 (r : ConfigRegs) : BitVec 32 → BitVec 32 := obf r.pm32 r.u32

/-- The forward function of engine S32: a signed value is carried as its pattern (R148). -/
def obfOfS32 (r : ConfigRegs) : BitVec 32 → BitVec 32 := obf r.pm32 r.s32

/-- The forward function of engine U64. -/
def obfOfU64 (r : ConfigRegs) : BitVec 64 → BitVec 64 := obf r.pm64 r.u64

/-- The forward function of engine S64. -/
def obfOfS64 (r : ConfigRegs) : BitVec 64 → BitVec 64 := obf r.pm64 r.s64

/-- The backward function of engine U32. -/
def deobfOfU32 (r : ConfigRegs) : BitVec 32 → BitVec 32 := deobf r.pinv32 r.u32

/-- The backward function of engine S32. -/
def deobfOfS32 (r : ConfigRegs) : BitVec 32 → BitVec 32 := deobf r.pinv32 r.s32

/-- The backward function of engine U64. -/
def deobfOfU64 (r : ConfigRegs) : BitVec 64 → BitVec 64 := deobf r.pinv64 r.u64

/-- The backward function of engine S64. -/
def deobfOfS64 (r : ConfigRegs) : BitVec 64 → BitVec 64 := deobf r.pinv64 r.s64

/-- A 32-bit command reads `X32IN` and writes `X32OUT` (10_state.md R23, R29). -/
def permute32 (f : ConfigRegs → BitVec 32 → BitVec 32) (s : State) : Out :=
  whenReady s fun regs => readOperand .x32in s.ops.x32in fun x =>
    .next (finish s (.ok { x32out := some (f regs x) }))

/-- A 64-bit command reads `X64IN` and writes `X64OUT`. -/
def permute64 (f : ConfigRegs → BitVec 64 → BitVec 64) (s : State) : Out :=
  whenReady s fun regs => readOperand .x64in s.ops.x64in fun x =>
    .next (finish s (.ok { x64out := some (f regs x) }))

/-- OBF.U32, byte 0x40 (R153). -/
def execObfU32 (s : State) : Out := permute32 obfOfU32 s

/-- OBF.S32, byte 0x41 (R154). -/
def execObfS32 (s : State) : Out := permute32 obfOfS32 s

/-- OBF.U64, byte 0x42 (R155). -/
def execObfU64 (s : State) : Out := permute64 obfOfU64 s

/-- OBF.S64, byte 0x43 (R156). -/
def execObfS64 (s : State) : Out := permute64 obfOfS64 s

/-- DEOBF.U32, byte 0x44 (R157). -/
def execDeobfU32 (s : State) : Out := permute32 deobfOfU32 s

/-- DEOBF.S32, byte 0x45 (R158). -/
def execDeobfS32 (s : State) : Out := permute32 deobfOfS32 s

/-- DEOBF.U64, byte 0x46 (R159). -/
def execDeobfU64 (s : State) : Out := permute64 deobfOfU64 s

/-- DEOBF.S64, byte 0x47 (R160). -/
def execDeobfS64 (s : State) : Out := permute64 deobfOfS64 s

end Sys2Proof.Machine
end

