-- ==== Sys2Proof/Machine/Composed.lean ====
section
/-! DEFINITION. The composed commands: OBFENC.k and DECDEOBF.k (43_composed.md). -/

namespace Sys2Proof.Machine

/-- The words of a scrambled pattern: EncodeAuto of the natural number it is when read as unsigned, for every
engine (R171, R172). -/
def patternWords {w : Nat} (c : Cfg) (rom : Rom) (y : BitVec w) : List Token :=
  encodeAuto c rom y.toNat

/-- OBFENC.k of a 32-bit engine with forward function `f` (R172). -/
def obfenc32 (c : Cfg) (f : ConfigRegs → BitVec 32 → BitVec 32) (s : State) : Out :=
  whenReady s fun regs => readOperand .x32in s.ops.x32in fun x =>
    .next (finish s (.ok { wout := some (patternWords c regs.rom (f regs x)) }))

/-- OBFENC.k of a 64-bit engine with forward function `f` (R172). -/
def obfenc64 (c : Cfg) (f : ConfigRegs → BitVec 64 → BitVec 64) (s : State) : Out :=
  whenReady s fun regs => readOperand .x64in s.ops.x64in fun x =>
    .next (finish s (.ok { wout := some (patternWords c regs.rom (f regs x)) }))

/-- Decode and narrow to `w` bits: a value that does not fit is refused, whatever width it came in (R177). -/
def decodePattern (w : Nat) (c : Cfg) (rom : Rom) (ws : List Token) : Except ErrKind (BitVec w) :=
  match decodeWords c rom ws with
  | .ok (e, _) => if 2 ^ w ≤ e then .error .narrowOverflow else .ok (BitVec.ofNat w e)
  | .error k => .error k

/-- The result of DECDEOBF.k of a 32-bit engine. -/
def decdeobfResult32 (f : BitVec 32 → BitVec 32) : Except ErrKind (BitVec 32) → Except ErrKind Results
  | .ok y => .ok { x32out := some (f y) }
  | .error k => .error k

/-- The result of DECDEOBF.k of a 64-bit engine. -/
def decdeobfResult64 (f : BitVec 64 → BitVec 64) : Except ErrKind (BitVec 64) → Except ErrKind Results
  | .ok y => .ok { x64out := some (f y) }
  | .error k => .error k

/-- DECDEOBF.k of a 32-bit engine with backward function `f` (R177). -/
def decdeobf32 (c : Cfg) (f : ConfigRegs → BitVec 32 → BitVec 32) (s : State) : Out :=
  whenReady s fun regs => readWords s.ops fun ws =>
    .next (finish s (decdeobfResult32 (f regs) (decodePattern 32 c regs.rom ws)))

/-- DECDEOBF.k of a 64-bit engine with backward function `f` (R177). -/
def decdeobf64 (c : Cfg) (f : ConfigRegs → BitVec 64 → BitVec 64) (s : State) : Out :=
  whenReady s fun regs => readWords s.ops fun ws =>
    .next (finish s (decdeobfResult64 (f regs) (decodePattern 64 c regs.rom ws)))

/-- OBFENC.U32, byte 0x80 (R173). -/
def execObfencU32 (s : State) : Out := obfenc32 Config.cfg obfOfU32 s

/-- OBFENC.S32, byte 0x81 (R174). -/
def execObfencS32 (s : State) : Out := obfenc32 Config.cfg obfOfS32 s

/-- OBFENC.U64, byte 0x82 (R175). -/
def execObfencU64 (s : State) : Out := obfenc64 Config.cfg obfOfU64 s

/-- OBFENC.S64, byte 0x83 (R176). -/
def execObfencS64 (s : State) : Out := obfenc64 Config.cfg obfOfS64 s

/-- DECDEOBF.U32, byte 0x84 (R178). -/
def execDecdeobfU32 (s : State) : Out := decdeobf32 Config.cfg deobfOfU32 s

/-- DECDEOBF.S32, byte 0x85 (R179). -/
def execDecdeobfS32 (s : State) : Out := decdeobf32 Config.cfg deobfOfS32 s

/-- DECDEOBF.U64, byte 0x86 (R180). -/
def execDecdeobfU64 (s : State) : Out := decdeobf64 Config.cfg deobfOfU64 s

/-- DECDEOBF.S64, byte 0x87 (R181). -/
def execDecdeobfS64 (s : State) : Out := decdeobf64 Config.cfg deobfOfS64 s

end Sys2Proof.Machine
end

