-- ==== Sys2Proof/Machine/Dispatch.lean ====
section
/-! DEFINITION. One arm per command: a direct call of its meaning. -/

namespace Sys2Proof.Machine

def exec (i : Instr) (s : State) : Host.Outcome State Fault Refusal :=
  match i with
  | .enc => Sys2Proof.Machine.execEnc s
  | .enca => Sys2Proof.Machine.execEnca s
  | .dec => Sys2Proof.Machine.execDec s
  | .rup32 => Sys2Proof.Machine.execRup32 s
  | .obfU32 => Sys2Proof.Machine.execObfU32 s
  | .obfS32 => Sys2Proof.Machine.execObfS32 s
  | .obfU64 => Sys2Proof.Machine.execObfU64 s
  | .obfS64 => Sys2Proof.Machine.execObfS64 s
  | .deobfU32 => Sys2Proof.Machine.execDeobfU32 s
  | .deobfS32 => Sys2Proof.Machine.execDeobfS32 s
  | .deobfU64 => Sys2Proof.Machine.execDeobfU64 s
  | .deobfS64 => Sys2Proof.Machine.execDeobfS64 s
  | .obfencU32 => Sys2Proof.Machine.execObfencU32 s
  | .obfencS32 => Sys2Proof.Machine.execObfencS32 s
  | .obfencU64 => Sys2Proof.Machine.execObfencU64 s
  | .obfencS64 => Sys2Proof.Machine.execObfencS64 s
  | .decdeobfU32 => Sys2Proof.Machine.execDecdeobfU32 s
  | .decdeobfS32 => Sys2Proof.Machine.execDecdeobfS32 s
  | .decdeobfU64 => Sys2Proof.Machine.execDecdeobfU64 s
  | .decdeobfS64 => Sys2Proof.Machine.execDecdeobfS64 s

end Sys2Proof.Machine
end

