-- ==== Sys2Proof/Machine/Flags.lean ====
section
/-! DEFINITION. The block's only flag and its codes (10_state.md R26, R38, R45). -/

namespace Sys2Proof.Machine

/-- The status code of an error kind (60_exceptions.md R190). -/
def errCode : ErrKind → BitVec 3
  | .invalidBitWidth => 1
  | .invalidWord => 2
  | .invalidChecksum => 3
  | .invalidData => 4
  | .narrowOverflow => 5
  | .illegalCommand => 6

/-- The 3-bit code that `STATUS` holds (R190). -/
def statusCode : Status → BitVec 3
  | .ok => 0
  | .error k => errCode k

/-- The 2-bit code that `PHASE` holds; 3 never occurs (10_state.md R38). -/
def phaseCode : Phase → BitVec 2
  | .reset => 0
  | .ready _ => 1
  | .fatal => 2

end Sys2Proof.Machine
end

