-- ==== Sys2Proof/Machine/Init.lean ====
section
/-! DEFINITION. Reset and initialisation (70_reset_and_hazards.md R215 to R221). -/

namespace Sys2Proof.Machine

/-- Newton's iteration for an inverse modulo `2^w`: each round doubles the number of right low bits. -/
def newton {w : Nat} (p : BitVec w) : Nat → BitVec w → BitVec w
  | 0, x => x
  | n + 1, x => newton p n (x * (2 - p * x))

/-- The inverse of an odd pattern modulo `2^w`, for `w` up to 96: an odd `p` is its own inverse modulo 8, and
five rounds follow. How it is computed is not observable (R218; log entry 10). -/
def inverse {w : Nat} (p : BitVec w) : BitVec w := newton p 5 p

/-- The registers that initialisation writes, from the configuration (R218). -/
def derivedRegs (c : Cfg) : ConfigRegs where
  rom := c.word
  pm32 := BitVec.ofNat 32 c.prime
  pm64 := BitVec.ofNat 64 c.prime
  pinv32 := inverse (BitVec.ofNat 32 c.prime)
  pinv64 := inverse (BitVec.ofNat 64 c.prime)
  u32 := c.u32
  s32 := c.s32
  u64 := c.u64
  s64 := c.s64

/-- The phase that initialisation ends in: `READY` for an odd `P`, else `FATAL` (R218, R219). -/
def initialPhase (c : Cfg) : Phase :=
  if c.prime % 2 = 1 then .ready (derivedRegs c) else .fatal

/-- The initialisation step. Operand and result registers are not touched (R218). -/
def initialise (c : Cfg) (s : State) : State :=
  { s with phase := initialPhase c }

/-- Reset: every piece of the block's state takes its "at reset" value (R215, 10_state.md R46). The host keeps
its program, its place and what it has read, and the next initialisation takes a fresh free value. -/
def resetBlock (s : State) : State where
  ops := {}
  status := .ok
  res := {}
  phase := .reset
  host := s.host
  initWait := Config.initWait (s.resets + 1)
  resets := s.resets + 1

end Sys2Proof.Machine
end

