-- ==== Sys2Proof/Machine/HostPort.lean ====
section
/-! DEFINITION. The host's actions (30_encoding.md R93, 70_reset_and_hazards.md R233): write, issue, read, jump,
reset. -/

namespace Sys2Proof.Machine

/-- The host's next line, if its program has one there (R234: a run ends where it has none). -/
def State.currentLine (s : State) : Option HostLine := s.host.program[s.host.line]?

/-- The host passes the line it stands at. -/
def State.passLine (s : State) : State :=
  { s with
    host := { s.host with line := s.host.line + 1 }
    initWait := s.initWait - 1 }

/-- The host goes to a label. -/
def State.jump (s : State) (label : Nat) : State :=
  { s with host := { s.host with line := label } }

/-- The host receives the value it read. No register changes (20_memory.md R65: no read has a side effect). -/
def State.receive (s : State) (v : HostValue) : State :=
  { s with host := { s.host with seen := v :: s.host.seen } }

/-- The XOR mask of engine `k` as the host reads it. -/
def ConfigRegs.xkOf (r : ConfigRegs) : Engine → HostValue
  | .u32 => .bits32 r.u32.xk
  | .s32 => .bits32 r.s32.xk
  | .u64 => .bits64 r.u64.xk
  | .s64 => .bits64 r.s64.xk

/-- The addend of engine `k` as the host reads it. -/
def ConfigRegs.akOf (r : ConfigRegs) : Engine → HostValue
  | .u32 => .bits32 r.u32.ak
  | .s32 => .bits32 r.s32.ak
  | .u64 => .bits64 r.u64.ak
  | .s64 => .bits64 r.s64.ak

/-- A host read of a derived register, which holds a value in `READY` only (10_state.md R42, R46). -/
def State.readDerived (s : State) (f : ConfigRegs → HostValue) : Option HostValue :=
  match s.phase with
  | .ready regs => some (f regs)
  | .reset | .fatal => none

/-- The value of a register or entry that the host names, or `none` where it holds none (R34, R42, R57). -/
def State.hostRead (s : State) : HostReg → Option HostValue
  | .vin => s.ops.vin.map .nat
  | .bwin => s.ops.bwin.map .int
  | .x32in => s.ops.x32in.map .bits32
  | .x64in => s.ops.x64in.map .bits64
  | .win => s.ops.winlen.bind fun n => if n ≤ s.ops.win.length then some (.tokens (s.ops.win.take n)) else none
  | .winlen => s.ops.winlen.map .nat
  | .winAt j => (s.memRead .win j).map .token
  | .status => some (.statusCode (statusCode s.status))
  | .vout => s.res.vout.map .nat
  | .bwout => s.res.bwout.map .nat
  | .x32out => s.res.x32out.map .bits32
  | .x64out => s.res.x64out.map .bits64
  | .wout => s.res.wout.map .tokens
  | .woutlen => s.res.wout.map fun ts => .nat ts.length
  | .woutAt j => (s.memRead .wout j).map .token
  | .phase => some (.phaseCode (phaseCode s.phase))
  | .pinv32 => s.readDerived fun r => .bits32 r.pinv32
  | .pinv64 => s.readDerived fun r => .bits64 r.pinv64
  | .pm32 => s.readDerived fun r => .bits32 r.pm32
  | .pm64 => s.readDerived fun r => .bits64 r.pm64
  | .xk k => s.readDerived fun r => r.xkOf k
  | .ak k => s.readDerived fun r => r.akOf k
  | .wromAt g => (s.memRead .wrom g.val).map .token

/-- `RD reg`: a register without a value is a fault of the host program (R34). -/
def runRead (r : HostReg) (s : State) : Out :=
  match s.hostRead r with
  | some v => .next (s.receive v)
  | none => .fault (.readNoValue r)

/-- The host issues a byte: a command executes, any other byte is illegal (30_encoding.md R84 to R86). -/
def runIssue (b : Byte) (s : State) : Out :=
  match decode b with
  | .ok i => exec i s
  | .error _ => illegalByte s

/-- One line of the host program, run on the state whose host has passed it. -/
def runLine (l : HostLine) (s : State) : Out :=
  match l with
  | .wr w => .next (s.writeOperand w)
  | .cmd i => runIssue (encode i) s
  | .issue b => runIssue b s
  | .rd r => runRead r s
  | .ifNotOk label => .next (if s.status = .ok then s else s.jump label)
  | .goto label => .next (s.jump label)
  | .reset => .next (resetBlock s)

/-- The host's next action; a host with no further line acts no more, and the block stays as it is (R234). -/
def runHost (s : State) : Out :=
  match s.currentLine with
  | some l => runLine l s.passLine
  | none => .next s

/-- Whether the initialisation step comes next: in phase `RESET`, when the host actions that come before it
have been taken or the host has none (R217; log entry 3). -/
def State.initDue (s : State) : Bool :=
  match s.phase with
  | .reset => s.initWait == 0 || s.currentLine.isNone
  | .ready _ | .fatal => false

/-- One step of the whole: the block initialises by itself, or the host acts. -/
def stepOf (c : Cfg) (s : State) : Out :=
  if s.initDue then .next (initialise c s) else runHost s

/-- The host writes an operand register that holds no value yet (70_reset_and_hazards.md R224, item 2). -/
def Operands.fill (o : Operands) : OperandReg → Operands
  | .vin => { o with vin := some (o.vin.getD 0) }
  | .bwin => { o with bwin := some (o.bwin.getD 32) }
  | .x32in => { o with x32in := some (o.x32in.getD 0) }
  | .x64in => { o with x64in := some (o.x64in.getD 0) }
  | .winlen => { o with winlen := some (o.winlen.getD 0) }
  | .win => { o with win := o.win ++ List.replicate (o.winlen.getD 0 - o.win.length) [] }

/-- The operands that the byte's command reads, each with a value. -/
def Operands.fillFor (o : Operands) (b : Byte) : Operands :=
  match decode b with
  | .ok i => (Instr.reads i).foldl Operands.fill o
  | .error _ => o

/-- The phase once initialisation is over; a phase that is `READY` stays as it is. -/
def Phase.started (c : Cfg) : Phase → Phase
  | .ready regs => .ready regs
  | .reset | .fatal => .ready (derivedRegs c)

/-- The host's next line issues `b`. -/
def HostSide.place (h : HostSide) (b : Byte) : HostSide :=
  let before := h.program.take h.line
  { h with program := before ++ .issue b :: h.program.drop (h.line + 1), line := before.length }

/-- The state in which the byte `b` is the next thing issued and its command executes: the block is `READY`,
the operands the command reads hold values, and the host stands at a line that issues `b` (R224; log entry 6). -/
def placeCommand (c : Cfg) (s : State) (b : Byte) : State :=
  { s with ops := s.ops.fillFor b, phase := s.phase.started c, host := s.host.place b }

end Sys2Proof.Machine
end

