-- ==== Sys2Proof/Machine/Step.lean ====
section
/-! DEFINITION. The step of the machine, and where a table row's command stands to be the next one run. -/

namespace Sys2Proof.Machine

/-- One step: initialisation when it is due, else the host's next action. -/
def step (s : State) : Host.Outcome State Fault Refusal := stepOf Config.cfg s

/-- `s` with the command of a table row as the next one the host issues (log entry 6). -/
def State.withFetchWord (s : State) (nbits w : Nat) : State :=
  placeCommand Config.cfg s (tableByte nbits w)

end Sys2Proof.Machine
end

