-- ==== Sys2Proof/Safety.lean ====
section
/-! DEFINITION. The terms in which claims speak: the spec's tables of what each command may leave, and the
invariant of the machine. -/

namespace Sys2Proof.Safety

open Sys2Proof.Machine

/-- A valid entropy width (20_memory.md R62). -/
def ValidWidth (ent : Nat) : Prop := 0 < ent ∧ ent % 32 = 0

/-- The words of the 33k-bit frame `t`: word `i` is the ROM's entry at bits `33k-1-11i : 33k-11-11i` of `t`
(30_encoding.md R90). -/
def frameWords (rom : Rom) (t k : Nat) : List Token :=
  (List.range (3 * k)).map fun i =>
    romWord rom ⟨t / 2 ^ (11 * (3 * k - 1 - i)) % 2048, Nat.mod_lt _ (by decide)⟩

/-- The derived registers hold what the permutation laws need: each inverse undoes its multiplier, and the two
multipliers come from one number (10_state.md R39, R40). -/
def RegsSound (r : ConfigRegs) : Prop :=
  r.pm32 * r.pinv32 = 1 ∧ r.pm64 * r.pinv64 = 1 ∧
    r.pm32 = r.pm64.setWidth 32 ∧ r.pinv32 = r.pinv64.setWidth 32

/-- Engine `e` has neither an XOR nor an add stage (10_state.md R41: the chosen value 0). -/
def PlainEngine {w : Nat} (e : EngineConst w) : Prop := e.xk = 0 ∧ e.ak = 0

/-- The error kinds a command can end with (60_exceptions.md R192). -/
def mayRaise : Instr → List ErrKind
  | .enc => [.invalidBitWidth]
  | .dec => [.invalidWord, .invalidChecksum]
  | .decdeobfU32 | .decdeobfS32 | .decdeobfU64 | .decdeobfS64 =>
    [.invalidWord, .invalidChecksum, .narrowOverflow]
  | .enca | .rup32 | .obfU32 | .obfS32 | .obfU64 | .obfS64 => []
  | .deobfU32 | .deobfS32 | .deobfU64 | .deobfS64 => []
  | .obfencU32 | .obfencS32 | .obfencU64 | .obfencS64 => []

/-- What a command that succeeds leaves in the result registers: the registers that 10_state.md R31 lists hold
values and the others hold none. -/
def WritesExactly : Instr → Results → Prop
  | .rup32, r => ∃ m, r = { bwout := some m }
  | .dec, r => ∃ e m, r = { vout := some e, bwout := some m }
  | .enc, r | .enca, r => ∃ ws, r = { wout := some ws }
  | .obfU32, r | .obfS32, r | .deobfU32, r | .deobfS32, r => ∃ p, r = { x32out := some p }
  | .obfU64, r | .obfS64, r | .deobfU64, r | .deobfS64, r => ∃ p, r = { x64out := some p }
  | .obfencU32, r | .obfencS32, r | .obfencU64, r | .obfencS64, r => ∃ ws, r = { wout := some ws }
  | .decdeobfU32, r | .decdeobfS32, r => ∃ p, r = { x32out := some p }
  | .decdeobfU64, r | .decdeobfS64, r => ∃ p, r = { x64out := some p }

/-- The commands that store words in WOUT (20_memory.md R50). -/
def storesWords : Instr → Bool
  | .enc | .enca | .obfencU32 | .obfencS32 | .obfencU64 | .obfencS64 => true
  | .dec | .rup32 | .obfU32 | .obfS32 | .obfU64 | .obfS64 => false
  | .deobfU32 | .deobfS32 | .deobfU64 | .deobfS64 => false
  | .decdeobfU32 | .decdeobfS32 | .decdeobfU64 | .decdeobfS64 => false

/-- Every operand register that the command reads has been written since reset (30_encoding.md R84). -/
def OperandsWritten (i : Instr) (s : State) : Prop :=
  ∀ r ∈ Instr.reads i, Operands.written s.ops r = true

/-- Two operand files hold the same in register `r`; of WIN, in the entries below WINLEN. -/
def sameOperand (a b : Operands) : OperandReg → Prop
  | .vin => a.vin = b.vin
  | .bwin => a.bwin = b.bwin
  | .x32in => a.x32in = b.x32in
  | .x64in => a.x64in = b.x64in
  | .winlen => a.winlen = b.winlen
  | .win => a.win.take (a.winlen.getD 0) = b.win.take (b.winlen.getD 0)

/-- What a decoding command reads is `ws`: WINLEN is its length and the entries of WIN below it are its words
(40_codec.md R114). -/
def WinHolds (s : State) (ws : List Token) : Prop :=
  s.ops.winlen = some ws.length ∧ s.ops.win.take ws.length = ws

/-- The block has not initialised well (10_state.md R46): the derived registers hold no value. -/
def NotReady (s : State) : Prop := ∀ regs, s.phase ≠ .ready regs

/-- A register or entry that the host names holds no value (10_state.md R34, R42, R46, 20_memory.md R57). -/
def NoValue (s : State) : HostReg → Prop
  | .vin => s.ops.vin = none
  | .bwin => s.ops.bwin = none
  | .x32in => s.ops.x32in = none
  | .x64in => s.ops.x64in = none
  | .winlen => s.ops.winlen = none
  | .win => ∀ n, s.ops.winlen = some n → s.ops.win.length < n
  | .winAt j => ∀ n, s.ops.winlen = some n → n ≤ j ∨ s.ops.win.length ≤ j
  | .status | .phase => False
  | .vout => s.res.vout = none
  | .bwout => s.res.bwout = none
  | .x32out => s.res.x32out = none
  | .x64out => s.res.x64out = none
  | .wout | .woutlen => s.res.wout = none
  | .woutAt j => ∀ ts, s.res.wout = some ts → ts.length ≤ j
  | .pinv32 | .pinv64 | .pm32 | .pm64 | .xk _ | .ak _ => NotReady s
  | .wromAt _ => s.phase = .reset

/-- Register or entry `r` that the host names holds the value `v` (10_state.md R42; the buffers: R24, R30); WROM in
`FATAL` holds a free value (log entry 17). -/
def HoldsValue (s : State) (v : HostValue) : HostReg → Prop
  | .vin => ∃ n, s.ops.vin = some n ∧ v = .nat n
  | .bwin => ∃ z, s.ops.bwin = some z ∧ v = .int z
  | .x32in => ∃ p, s.ops.x32in = some p ∧ v = .bits32 p
  | .x64in => ∃ p, s.ops.x64in = some p ∧ v = .bits64 p
  | .win => ∃ ws, WinHolds s ws ∧ v = .tokens ws
  | .winlen => ∃ n, s.ops.winlen = some n ∧ v = .nat n
  | .winAt j => ∃ n w, s.ops.winlen = some n ∧ j < n ∧ s.ops.win[j]? = some w ∧ v = .token w
  | .status => v = .statusCode (statusCode s.status)
  | .vout => ∃ n, s.res.vout = some n ∧ v = .nat n
  | .bwout => ∃ n, s.res.bwout = some n ∧ v = .nat n
  | .x32out => ∃ p, s.res.x32out = some p ∧ v = .bits32 p
  | .x64out => ∃ p, s.res.x64out = some p ∧ v = .bits64 p
  | .wout => ∃ ws, s.res.wout = some ws ∧ v = .tokens ws
  | .woutlen => ∃ ws, s.res.wout = some ws ∧ v = .nat ws.length
  | .woutAt j => ∃ ws w, s.res.wout = some ws ∧ ws[j]? = some w ∧ v = .token w
  | .phase => v = .phaseCode (phaseCode s.phase)
  | .pinv32 => ∃ r, s.phase = .ready r ∧ v = .bits32 r.pinv32
  | .pinv64 => ∃ r, s.phase = .ready r ∧ v = .bits64 r.pinv64
  | .pm32 => ∃ r, s.phase = .ready r ∧ v = .bits32 r.pm32
  | .pm64 => ∃ r, s.phase = .ready r ∧ v = .bits64 r.pm64
  | .xk .u32 => ∃ r, s.phase = .ready r ∧ v = .bits32 r.u32.xk
  | .xk .s32 => ∃ r, s.phase = .ready r ∧ v = .bits32 r.s32.xk
  | .xk .u64 => ∃ r, s.phase = .ready r ∧ v = .bits64 r.u64.xk
  | .xk .s64 => ∃ r, s.phase = .ready r ∧ v = .bits64 r.s64.xk
  | .ak .u32 => ∃ r, s.phase = .ready r ∧ v = .bits32 r.u32.ak
  | .ak .s32 => ∃ r, s.phase = .ready r ∧ v = .bits32 r.s32.ak
  | .ak .u64 => ∃ r, s.phase = .ready r ∧ v = .bits64 r.u64.ak
  | .ak .s64 => ∃ r, s.phase = .ready r ∧ v = .bits64 r.s64.ak
  | .wromAt g => (∃ r, s.phase = .ready r ∧ v = .token (romWord r.rom g)) ∨
      (s.phase = .fatal ∧ v = .token ((Config.fatalWrom s.resets).get g))

/-- The host acts next at line `l`: it stands there, and no initialisation step comes first. -/
def HostActs (s : State) (l : HostLine) : Prop :=
  s.host.program[s.host.line]? = some l ∧ (s.phase ≠ .reset ∨ s.initWait ≠ 0)

/-- Initialisation comes next: phase `RESET`, and the host actions before it are taken or the host has none. -/
def InitialisationIsNext (s : State) : Prop :=
  s.phase = .reset ∧ (s.initWait = 0 ∨ s.host.program[s.host.line]? = none)

/-- The state after a command that ends well with results `r` (10_state.md R33): nothing else changes. -/
def done (s : State) (r : Results) : State := { s with status := .ok, res := r }

/-- The state after a command that ends with error kind `k` (60_exceptions.md R195). -/
def failed (s : State) (k : ErrKind) : State := { s with status := .error k, res := {} }

/-- The host's position moves to line `n`; of the rest only the count of actions before initialisation goes
down. -/
def hostAt (s : State) (n : Nat) : State :=
  { s with host := { s.host with line := n }, initWait := s.initWait - 1 }

/-- The result registers are those of one command: none, or exactly those that one command writes, with a
decoded value below its width (R31, R33, 40_codec.md R119). -/
def OneCommandsResults (r : Results) : Prop :=
  r = {} ∨
  (∃ m, r = { bwout := some m } ∧ ValidWidth m) ∨
  (∃ e m, r = { vout := some e, bwout := some m } ∧ ValidWidth m ∧ e < 2 ^ m) ∨
  (∃ p, r = { x32out := some p }) ∨
  (∃ p, r = { x64out := some p }) ∨
  (∃ ws, r = { wout := some ws })

/-- The invariant of the machine: sound derived registers; after an error no result; the results of at most one
command; outside `READY` the reset values of status and results (70_reset_and_hazards.md R221); the memory's
form; no entry of WIN without a WINLEN. -/
structure Inv (s : State) : Prop where
  regs : ∀ r, s.phase = .ready r → RegsSound r
  errors : s.status ≠ .ok → s.res = {}
  results : OneCommandsResults s.res
  quiet : NotReady s → s.status = .ok ∧ s.res = {}
  memory : Memory.wf s = true
  buffer : s.ops.winlen = none → s.ops.win = []

end Sys2Proof.Safety
end

