-- ==== Sys2Proof/Certificates/Slice0/Obligations.lean ====
section
/-! DEFINITION. The statements for the provers. Each docstring names the rule of spec/ that it formalises. -/

open Sys2Proof Sys2Proof.Machine Sys2Proof.Safety

/-! Reset, initialisation, phases -/

/-- R46: every piece of state at reset, after a successful initialisation and after a fatal one. (WROM after a fatal
initialisation is unspecified, and nothing is said of it.) -/
def Obligations.ResetLeavesTheTabledValues : Prop :=
  State.reset.phase = .reset ∧ State.reset.status = .ok ∧ State.reset.res = {} ∧ State.reset.ops = {} ∧
    (∀ sp i, State.reset.memRead sp i = none) ∧
    (∀ r ∈ [HostReg.pinv32, .pinv64, .pm32, .pm64], State.reset.hostRead r = none) ∧
    (∀ k, State.reset.hostRead (.xk k) = none ∧ State.reset.hostRead (.ak k) = none) ∧
    (∀ c : Cfg, c.prime % 2 = 1 →
      ∃ r, stepOf c State.reset = .next { State.reset with phase := .ready r } ∧ r.rom = c.word ∧
        c.prime * r.pinv32.toNat % 2 ^ 32 = 1 ∧ c.prime * r.pinv64.toNat % 2 ^ 64 = 1 ∧
        r.pm32.toNat = c.prime % 2 ^ 32 ∧ r.pm64.toNat = c.prime % 2 ^ 64 ∧
        r.u32 = c.u32 ∧ r.s32 = c.s32 ∧ r.u64 = c.u64 ∧ r.s64 = c.s64) ∧
    ∀ c : Cfg, c.prime % 2 = 0 →
      ∃ t, stepOf c State.reset = .next t ∧ t = { State.reset with phase := .fatal } ∧
        (∀ r ∈ [HostReg.pinv32, .pinv64, .pm32, .pm64], t.hostRead r = none) ∧
        ∀ k, t.hostRead (.xk k) = none ∧ t.hostRead (.ak k) = none

/-- The invariant holds at reset (R46). -/
def Obligations.ResetMeetsTheInvariant : Prop := Safety.Inv State.reset

/-- Every step keeps the invariant: sound derived registers (R39, R40), no result after an error (R196), the
results of at most one command (R31, R33), reset values outside READY (R221), the memory's form (R51, R62). -/
def Obligations.StepKeepsTheInvariant : Prop :=
  ∀ s t, Safety.Inv s → step s = .next t → Safety.Inv t

/-- R218, R39: with an odd `P` the initialisation step changes PHASE to READY and writes the word ROM, the
multipliers, the unique inverses and the stage constants, and touches nothing else. The machine's own step is
the step under its configuration `Config.cfg`. When initialisation comes is a free value (log entry 3). -/
def Obligations.InitialisationOfAnOddPrime : Prop :=
  (∀ s, step s = stepOf Config.cfg s) ∧ ∀ (c : Cfg) s, c.prime % 2 = 1 → InitialisationIsNext s →
    ∃ r, stepOf c s = .next { s with phase := .ready r } ∧
      (∀ g : Index, ({ s with phase := .ready r } : State).memRead .wrom g = some (romWord c.word g)) ∧
      r.rom = c.word ∧ r.pm32.toNat = c.prime % 2 ^ 32 ∧ r.pm64.toNat = c.prime % 2 ^ 64 ∧
      (∀ p < 2 ^ 32, c.prime * p % 2 ^ 32 = 1 ↔ p = r.pinv32.toNat) ∧
      (∀ p < 2 ^ 64, c.prime * p % 2 ^ 64 = 1 ↔ p = r.pinv64.toNat) ∧
      r.u32 = c.u32 ∧ r.s32 = c.s32 ∧ r.u64 = c.u64 ∧ r.s64 = c.s64

/-- R219: with an even `P` the initialisation step sets PHASE to FATAL and changes nothing else; with an odd `P`,
prime or not, it ends in READY. -/
def Obligations.InitialisationOfAnEvenPrimeIsFatal : Prop :=
  ∀ (c : Cfg) s, InitialisationIsNext s →
    (c.prime % 2 = 0 → stepOf c s = .next { s with phase := .fatal }) ∧
    (c.prime % 2 = 1 → ∃ r, stepOf c s = .next { s with phase := .ready r })

/-- R216, R220: READY and FATAL are left only by reset, RESET only by the initialisation step, and the derived
registers and the word ROM, which READY holds, never change before the next reset. -/
def Obligations.PhaseIsLeftOnlyByReset : Prop :=
  ∀ s t, step s = .next t →
    (s.phase ≠ .reset → s.host.program[s.host.line]? ≠ some .reset → t.phase = s.phase) ∧
    (s.host.program[s.host.line]? = some .reset → s.phase ≠ .reset → t.phase = .reset) ∧
    (s.phase = .reset → (InitialisationIsNext s → t.phase = .fatal ∨ ∃ r, t.phase = .ready r) ∧
      (¬ InitialisationIsNext s → t.phase = .reset))

/-- R215: reset puts every piece of the block's state at its reset value, from any phase. That reset comes as a line
of the host program is the model's choice (log entries 5 and 12). -/
def Obligations.HostResetsTheBlock : Prop :=
  ∀ s, HostActs s .reset →
    ∃ t, step s = .next t ∧ t.phase = .reset ∧ t.status = .ok ∧ t.res = {} ∧ t.ops = {} ∧
      (∀ sp i, t.memRead sp i = none) ∧
      (∀ r ∈ [HostReg.pinv32, .pinv64, .pm32, .pm64], t.hostRead r = none) ∧
      ∀ k, t.hostRead (.xk k) = none ∧ t.hostRead (.ak k) = none

/-! Encoding and issue -/

/-- Every command's byte decodes to the command. -/
def Obligations.EncodedCommandDecodesToItself : Prop :=
  ∀ i : Instr, i.wellFormed = true → decode (encode i) = .ok i

/-- R85: the complete opcode map. A byte decodes to a command exactly where the map has that row. -/
def Obligations.OpcodeMapIsComplete : Prop :=
  ∀ (b : Byte) i, decode b = .ok i ↔ (b, i) ∈
    ([(0x00, .enc), (0x01, .enca), (0x02, .dec), (0x03, .rup32),
      (0x40, .obfU32), (0x41, .obfS32), (0x42, .obfU64), (0x43, .obfS64),
      (0x44, .deobfU32), (0x45, .deobfS32), (0x46, .deobfU64), (0x47, .deobfS64),
      (0x80, .obfencU32), (0x81, .obfencS32), (0x82, .obfencU64), (0x83, .obfencS64),
      (0x84, .decdeobfU32), (0x85, .decdeobfS32), (0x86, .decdeobfU64), (0x87, .decdeobfS64)] :
      List (Byte × Instr))

/-- A step runs the decoded command: when the host issues a byte (or a mnemonic) that decodes to `i`, the step
is `exec i` on the state whose host has passed the line. The host's place is the model's own state (log entry 5). -/
def Obligations.StepRunsTheDecodedCommand : Prop :=
  (∀ s b i, HostActs s (.issue b) → decode b = .ok i → step s = exec i (hostAt s (s.host.line + 1))) ∧
    ∀ s i, HostActs s (.cmd i) → step s = exec i (hostAt s (s.host.line + 1))

/-- R86: the illegal bytes are exactly those with CLASS 11, or ZERO not 000, or CLASS 00 and FUNC at least 100;
there are 236 of them; and in READY issuing one sets every result register to none and STATUS to IllegalCommand,
and changes nothing else of the block. -/
def Obligations.IllegalByteInReady : Prop :=
  (∀ b : Byte, (∃ k, decode b = .error k) ↔
    classField b = 0b11 ∨ zeroField b ≠ 0b000 ∨ (classField b = 0b00 ∧ 0b100 ≤ (funcField b).toNat)) ∧
  ((List.range 256).filter fun n => (decode (BitVec.ofNat 8 n)).toOption.isNone).length = 236 ∧
  ∀ s regs b k, s.phase = .ready regs → HostActs s (.issue b) → decode b = .error k →
    step s = .next (failed (hostAt s (s.host.line + 1)) .illegalCommand)

/-- R221: outside READY a command, and any byte, changes nothing; STATUS is then OK and no result is there (in every
state that meets the invariant); the host's writes of operand registers are accepted all the same. -/
def Obligations.CommandsOutsideReadyAreIgnored : Prop :=
  ∀ s, NotReady s → (∀ i, exec i s = .next s) ∧
    (∀ b, HostActs s (.issue b) → step s = .next (hostAt s (s.host.line + 1))) ∧
    (Safety.Inv s → s.status = .ok ∧ s.res = {}) ∧
    ∀ w, HostActs s (.wr w) → step s = .next ((hostAt s (s.host.line + 1)).writeOperand w)

/-! What every command does and leaves -/

/-- R25, R216, R220: a command changes no operand register, no derived register or WROM, not PHASE, and nothing
of the host; a composed command leaves nothing in VOUT. -/
def Obligations.CommandsKeepAllButStatusAndResults : Prop :=
  ∀ i s t, exec i s = .next t →
    t.ops = s.ops ∧ t.phase = s.phase ∧ t.host = s.host ∧ t.initWait = s.initWait ∧ t.resets = s.resets ∧
    (¬ NotReady s → i ∈ [Instr.obfencU32, .obfencS32, .obfencU64, .obfencS64, .decdeobfU32, .decdeobfS32,
      .decdeobfU64, .decdeobfS64] → t.res.vout = none)

/-- The frame of memory: WROM and WIN read as before at every address; a command of READY that stores no words
leaves every entry of WOUT without a value (10_state.md R33). What the storing commands leave in WOUT is said by
their result statements. -/
def Obligations.CommandsKeepMemory : Prop :=
  ∀ i s t, exec i s = .next t →
    (∀ a, t.memRead .wrom a = s.memRead .wrom a) ∧ (∀ a, t.memRead .win a = s.memRead .win a) ∧
    (NotReady s → ∀ a, t.memRead .wout a = s.memRead .wout a) ∧
    (¬ NotReady s → storesWords i = false → ∀ a, t.memRead .wout a = none)

/-- R195: after an error STATUS holds the kind and every other result register is none. -/
def Obligations.FailedCommandLeavesNoResult : Prop :=
  ∀ i s t regs k, s.phase = .ready regs → exec i s = .next t → t.status = .error k →
    t = failed s k

/-- R33: after success a command's own result registers hold values and no other does, and after a failure none
but STATUS does. -/
def Obligations.SuccessWritesExactlyItsResults : Prop :=
  ∀ i s t regs, s.phase = .ready regs → exec i s = .next t →
    (t.status = .ok → WritesExactly i t.res ∧ t = done s t.res) ∧ (t.status ≠ .ok → t.res = {})

/-- R192: the kinds a command can end with. -/
def Obligations.CommandsEndWithTheirOwnKinds : Prop :=
  ∀ i s t regs k, s.phase = .ready regs → exec i s = .next t → t.status = .error k → k ∈ mayRaise i

/-- In READY, with the operands it reads written, every command ends in a next state (R37, R84). -/
def Obligations.CommandsEnd : Prop :=
  ∀ i s regs, s.phase = .ready regs → OperandsWritten i s → ∃ t, exec i s = .next t

/-- R47: in READY a command that reads an operand register never written is a fault of the host program. That ENC
needs both its operands, whatever the width is, is the model's reading (log entry 11). -/
def Obligations.UnwrittenOperandIsAFault : Prop :=
  ∀ i s regs, s.phase = .ready regs → ¬ OperandsWritten i s →
    ∃ r ∈ Instr.reads i, Operands.written s.ops r = false ∧ exec i s = .fault (.unwrittenOperand r)

/-- R31: a command's STATUS and results depend on the operand registers it reads, and on the configuration, alone:
whatever else two states of READY hold, it leaves the same in both; and on success it writes exactly its own. -/
def Obligations.ResultsDependOnTheOperandsRead : Prop :=
  ∀ i s u t regs, s.phase = .ready regs → u.phase = .ready regs →
    (∀ r ∈ Instr.reads i, sameOperand s.ops u.ops r) → exec i s = .next t →
    exec i u = .next { u with status := t.status, res := t.res } ∧
      (t.status = .ok → WritesExactly i t.res)

/-- The codes of STATUS (60_exceptions.md R190) and of PHASE (10_state.md R38). -/
def Obligations.StatusAndPhaseCodes : Prop :=
  statusCode .ok = 0 ∧ statusCode (.error .invalidBitWidth) = 1 ∧ statusCode (.error .invalidWord) = 2 ∧
    statusCode (.error .invalidChecksum) = 3 ∧ statusCode (.error .invalidData) = 4 ∧
    statusCode (.error .narrowOverflow) = 5 ∧ statusCode (.error .illegalCommand) = 6 ∧
    phaseCode .reset = 0 ∧ (∀ r, phaseCode (.ready r) = 1) ∧ phaseCode .fatal = 2

/-! The host -/

/-- A host read of a register or entry without a value is a fault of the host program; any other read gives the host a
value and changes no register (R34 for results, R206 for registers in general, R57 for entries outside a buffer, R46 for
the derived registers outside READY and for WROM in RESET). A read of WROM in FATAL, where its content is unspecified,
gives a free value (log entry 17). -/
def Obligations.HostReadOfNoValueIsAFault : Prop :=
  ∀ s r, HostActs s (.rd r) →
    (NoValue s r → step s = .fault (.readNoValue r)) ∧
    (¬ NoValue s r → ∃ v, step s = .next ((hostAt s (s.host.line + 1)).receive v))

/-- What the host gets when it reads a register or an entry, for every one of them: the value it holds (R42, R24, R30,
R38 to R41). The codes of STATUS and PHASE are those of StatusAndPhaseCodes; WROM in FATAL gives a free value, which is
the model's choice (log entry 17). -/
def Obligations.HostReadGivesTheValue : Prop :=
  ∀ s r v, HostActs s (.rd r) → HoldsValue s v r →
    step s = .next ((hostAt s (s.host.line + 1)).receive v)

/-- R42: the host writes an operand register in any phase, and the write changes that register alone; a write of WIN
writes WINLEN with it (R93) and leaves the entries beyond, and a write of WINLEN leaves the buffer as it is (log
entry 7). -/
def Obligations.HostWriteReachesOneRegister : Prop :=
  ∀ s w, HostActs s (.wr w) →
    ∃ t, step s = .next t ∧ t = { hostAt s (s.host.line + 1) with ops := t.ops } ∧
      match w with
      | .vin n => t.ops = { s.ops with vin := some n }
      | .bwin z => t.ops = { s.ops with bwin := some z }
      | .x32in p => t.ops = { s.ops with x32in := some p }
      | .x64in p => t.ops = { s.ops with x64in := some p }
      | .win ts => t.ops = { s.ops with win := ts ++ s.ops.win.drop ts.length, winlen := some ts.length }
      | .winlen n => t.ops = { s.ops with winlen := some n }

/-- The host's own control flow (30_encoding.md R93): GOTO goes to its label, IF STATUS != OK GOTO goes there
exactly after an error, and neither changes a register. Labels as line numbers are the model's choice (log entry 5). -/
def Obligations.HostBranches : Prop :=
  (∀ s n, HostActs s (.goto n) → step s = .next (hostAt s n)) ∧
    (∀ s n, HostActs s (.ifNotOk n) → s.status ≠ .ok → step s = .next (hostAt s n)) ∧
    ∀ s n, HostActs s (.ifNotOk n) → s.status = .ok → step s = .next (hostAt s (s.host.line + 1))

/-- A host with no further action leaves the block as it is (70_reset_and_hazards.md R234). That such a step is a
next state is the model's choice (log entry 6). -/
def Obligations.BlockIsQuiescent : Prop :=
  ∀ s, s.phase ≠ .reset → s.host.program[s.host.line]? = none → step s = .next s

/-- The only stops of the machine are faults of the host program: a command of READY that reads an unwritten
operand (10_state.md R47), a read of a register without a value (R34). Nothing is refused. -/
def Obligations.StepStopsOnlyForTheHost : Prop :=
  ∀ s, (∀ r, step s ≠ .refused r) ∧
    (∀ r, step s = .fault (.unwrittenOperand r) → Operands.written s.ops r = false ∧ ¬ NotReady s) ∧
    ∀ r, step s = .fault (.readNoValue r) → HostActs s (.rd r) ∧ NoValue s r

/-! The codec -/

/-- R100, R101: RUP32 gives the smallest positive multiple of 32 that is at least VIN. -/
def Obligations.Rup32GivesTheLeastWidth : Prop :=
  ∀ s regs n, s.phase = .ready regs → s.ops.vin = some n →
    ∃ m, exec .rup32 s = .next (done s { bwout := some m }) ∧ ValidWidth m ∧ n ≤ m ∧
      ∀ j, ValidWidth j → n ≤ j → m ≤ j

/-- R102: the document's table of values. -/
def Obligations.Rup32Table : Prop :=
  ∀ p ∈ [(0, 32), (1, 32), (31, 32), (32, 32), (33, 64), (63, 64), (64, 64), (65, 96), (127, 128), (128, 128),
      (129, 160), (255, 256), (256, 256)],
    ∀ s regs, s.phase = .ready regs → s.ops.vin = some p.1 →
      exec .rup32 s = .next (done s { bwout := some p.2 })

/-- R186, R63: ENC with a width that is zero, negative or no multiple of 32 raises InvalidBitWidth and does nothing
else, whatever value VIN holds; no other command raises it. -/
def Obligations.EncOfABadWidthFails : Prop :=
  (∀ s regs v (bw : Int), s.phase = .ready regs → s.ops.vin = some v → s.ops.bwin = some bw →
    (bw ≤ 0 ∨ bw % 32 ≠ 0) → exec .enc s = .next (failed s .invalidBitWidth)) ∧
  ∀ i s t regs, s.phase = .ready regs → exec i s = .next t → t.status = .error .invalidBitWidth → i = .enc

/-- R108: ENC raises InvalidBitWidth for a bad width; at width 32k it writes to WOUT:0 up to WOUT:(3k-1) the words of
the frame of the low 32k bits of VIN with their checksum, and nothing beyond. -/
def Obligations.EncWritesTheFrame : Prop :=
  ∀ s regs v (bw : Int), s.phase = .ready regs → s.ops.vin = some v → s.ops.bwin = some bw →
    ((bw ≤ 0 ∨ bw % 32 ≠ 0) → exec .enc s = .next (failed s .invalidBitWidth)) ∧
    ∀ k : Nat, bw = ((32 * k : Nat) : Int) → 0 < k →
      exec .enc s = .next (done s
        { wout := some (frameWords regs.rom
            (v % 2 ^ (32 * k) * 2 ^ k + ck Config.cfg (32 * k) (bytesBE (v % 2 ^ (32 * k)) (4 * k))) k) }) ∧
      ∀ t, exec .enc s = .next t → ∀ a, t.memRead .wout a =
        if a < 3 * k then (frameWords regs.rom
          (v % 2 ^ (32 * k) * 2 ^ k + ck Config.cfg (32 * k) (bytesBE (v % 2 ^ (32 * k)) (4 * k))) k)[a]?
        else none

/-- R110: ENC of `v` and ENC of `v mod 2^w` at a valid width `w` write the same words. -/
def Obligations.EncTruncates : Prop :=
  ∀ s u regs v w, s.phase = .ready regs → u.phase = .ready regs → ValidWidth w →
    s.ops.vin = some v → u.ops.vin = some (v % 2 ^ w) →
    s.ops.bwin = some (w : Int) → u.ops.bwin = some (w : Int) →
    ∃ ws, exec .enc s = .next (done s { wout := some ws }) ∧ exec .enc u = .next (done u { wout := some ws })

/-- R111, R113: ENCA, whatever BWIN holds, writes the words of VIN at the smallest valid width that holds it; it
never truncates. -/
def Obligations.EncaChoosesTheLeastWidth : Prop :=
  ∀ s regs v, s.phase = .ready regs → s.ops.vin = some v →
    ∃ k, 0 < k ∧ v < 2 ^ (32 * k) ∧ (∀ j, 0 < j → v < 2 ^ (32 * j) → k ≤ j) ∧
      exec .enca s = .next (done s
        { wout := some (frameWords regs.rom (v * 2 ^ k + ck Config.cfg (32 * k) (bytesBE v (4 * k))) k) })

/-- R115, R187: a word that is in no entry of the word ROM makes DEC and every DECDEOBF end with InvalidWord,
whatever the other words, the count or the checksum are. -/
def Obligations.UnknownWordIsInvalid : Prop :=
  ∀ s regs ws, s.phase = .ready regs → WinHolds s ws → (∃ t ∈ ws, ∀ g, romWord regs.rom g ≠ t) →
    ∀ i ∈ [Instr.dec, .decdeobfU32, .decdeobfS32, .decdeobfU64, .decdeobfS64],
      exec i s = .next (failed s .invalidWord)

/-- R116, R64: a word count that is no positive multiple of 3 makes DEC and every DECDEOBF end with InvalidWord; a
positive multiple of 3 of known words does not make DEC end so. -/
def Obligations.BadCountIsInvalid : Prop :=
  ∀ s regs ws, s.phase = .ready regs → WinHolds s ws →
    ((ws.length = 0 ∨ ws.length % 3 ≠ 0) →
      ∀ i ∈ [Instr.dec, .decdeobfU32, .decdeobfS32, .decdeobfU64, .decdeobfS64],
        exec i s = .next (failed s .invalidWord)) ∧
    (0 < ws.length → ws.length % 3 = 0 → (∀ t ∈ ws, ∃ g, romWord regs.rom g = t) →
      ∃ t, exec .dec s = .next t ∧ t.status ≠ .error .invalidWord)

/-- R114, R117, R118, R119: DEC ends with InvalidWord for an unknown word or a bad count; on the words of the frame
`{e, x}` of width 32k it gives `VOUT = e` and `BWOUT = 32k` when `x` is the checksum of `e`, and InvalidChecksum
otherwise. -/
def Obligations.DecVerifiesTheFrame : Prop :=
  ∀ s regs ws, s.phase = .ready regs → WinHolds s ws →
    (((∃ t ∈ ws, ∀ g, romWord regs.rom g ≠ t) ∨ ws.length = 0 ∨ ws.length % 3 ≠ 0) →
      exec .dec s = .next (failed s .invalidWord)) ∧
    ∀ k e x : Nat, 0 < k → e < 2 ^ (32 * k) → x < 2 ^ k → ws = frameWords regs.rom (e * 2 ^ k + x) k →
      exec .dec s = .next
        (if ck Config.cfg (32 * k) (bytesBE e (4 * k)) = x then done s { vout := some e, bwout := some (32 * k) }
         else failed s .invalidChecksum)

/-- Every sequence of 3k known words, k positive, is the words of exactly one frame (R91, R117), so the
statements about DEC leave out no input. -/
def Obligations.KnownWordsAreAFrame : Prop :=
  ∀ (rom : Rom) ws k, ws.length = 3 * k → 0 < k → (∀ t ∈ ws, ∃ g, romWord rom g = t) →
    ∃! p : Nat × Nat, p.1 < 2 ^ (32 * k) ∧ p.2 < 2 ^ k ∧ ws = frameWords rom (p.1 * 2 ^ k + p.2) k

/-- R120: (a) what ENCA writes, DEC reads back as VIN itself; (b) what ENC writes at width 32k, DEC reads back as
VIN mod 2^(32k), with that width. -/
def Obligations.EncodeThenDecodeGivesTheValue : Prop :=
  (∀ s regs v, s.phase = .ready regs → s.ops.vin = some v →
    ∃ ws, exec .enca s = .next (done s { wout := some ws }) ∧
      ∀ u, u.phase = .ready regs → WinHolds u ws →
        exec .dec u = .next (done u { vout := some v, bwout := some (rup32 (bitlen v)) })) ∧
  ∀ s regs v (k : Nat), s.phase = .ready regs → s.ops.vin = some v → s.ops.bwin = some ((32 * k : Nat) : Int) →
    0 < k →
    ∃ ws, exec .enc s = .next (done s { wout := some ws }) ∧
      ∀ u, u.phase = .ready regs → WinHolds u ws →
        exec .dec u = .next (done u { vout := some (v % 2 ^ (32 * k)), bwout := some (32 * k) })

/-- R138: InvalidChecksum has one cause: a decoding command whose words are all known and of a valid count, with a
checksum that is not that of their entropy. -/
def Obligations.InvalidChecksumHasOneCause : Prop :=
  ∀ i s t regs, s.phase = .ready regs → exec i s = .next t → t.status = .error .invalidChecksum →
    i ∈ [Instr.dec, .decdeobfU32, .decdeobfS32, .decdeobfU64, .decdeobfS64] ∧
      ∃ k e x, 0 < k ∧ e < 2 ^ (32 * k) ∧ x < 2 ^ k ∧
        WinHolds s (frameWords regs.rom (e * 2 ^ k + x) k) ∧
        ck Config.cfg (32 * k) (bytesBE e (4 * k)) ≠ x

/-- R121: what DEC accepts, ENC writes again from the value and the width that DEC gave, so the two are inverse
bijections at each width. -/
def Obligations.DecThenEncGivesTheWords : Prop :=
  ∀ s regs ws t, s.phase = .ready regs → WinHolds s ws → exec .dec s = .next t → t.status = .ok →
    ∃ e k, t = done s { vout := some e, bwout := some (32 * k) } ∧ 0 < k ∧ e < 2 ^ (32 * k) ∧
      ws.length = 3 * k ∧
      ∀ u, u.phase = .ready regs → u.ops.vin = some e → u.ops.bwin = some ((32 * k : Nat) : Int) →
        exec .enc u = .next (done u { wout := some ws })

/-- R105, R106: group `i` of `n` is the `i`-th slice of 11 bits from the most significant side, and split and
join are inverse. -/
def Obligations.GroupsAndJoinAreInverse : Prop :=
  (∀ t n i, i < n → ((groups t n)[i]?).map Fin.val = some (t / 2 ^ (11 * (n - 1 - i)) % 2048)) ∧
    (∀ t n, t < 2 ^ (11 * n) → join (groups t n) = t) ∧ ∀ gs, groups (join gs) gs.length = gs

/-- R55: the two lookups are inverse, and `INDEX` is none exactly for a Token in no entry. -/
def Obligations.LookupsAreInverse : Prop :=
  ∀ rom : Rom, (∀ g, romIndex rom (romWord rom g) = some g) ∧
    (∀ t g, romIndex rom t = some g → romWord rom g = t) ∧
    ∀ t, romIndex rom t = none ↔ ∀ g, romWord rom g ≠ t

/-- R11, R58: the entropy bytes are big-endian and padded on the left. -/
def Obligations.BytesAreBigEndian : Prop :=
  (∀ v n, (bytesBE v n).length = n) ∧
    (∀ v n j, v < 2 ^ (8 * n) → j < n →
      ((bytesBE v n)[j]?).map BitVec.toNat = some (v / 2 ^ (8 * (n - j - 1)) % 2 ^ 8)) ∧
    (∀ v n, v < 2 ^ (8 * n) → intBE (bytesBE v n) = v) ∧ ∀ bs, bytesBE (intBE bs) bs.length = bs

/-- R133, R134: bit `j` from the left of a checksum of `CS` bits is bit `j` from the left of the digest, bit 7 of
the first byte first; where the digest has fewer than `CS` bits the checksum is CKX. It has `CS` bits (R135). -/
def Obligations.ChecksumIsTheLeadingBits : Prop :=
  ∀ (c : Cfg) ent bs, ck c ent bs < 2 ^ (ent / 32) ∧
    (ent / 32 ≤ c.dlen → ∀ j < ent / 32,
      (ck c ent bs).testBit (ent / 32 - 1 - j) =
        (((c.hash bs).toList[j / 8]?).map fun b => b.getLsbD (7 - j % 8)).getD false) ∧
    (c.dlen < ent / 32 → ck c ent bs = (c.ckx ent bs).toNat)

/-! The permutation engines -/

/-- R150, R153 to R156: OBF multiplies, XORs and adds modulo 2^32 in a 32-bit engine and modulo 2^64 in a 64-bit
engine. -/
def Obligations.ObfMultipliesXorsAdds : Prop :=
  (∀ s regs x, s.phase = .ready regs → s.ops.x32in = some x →
    ∀ p ∈ [(Instr.obfU32, regs.u32), (.obfS32, regs.s32)],
      ∃ y, exec p.1 s = .next (done s { x32out := some y }) ∧
        y.toNat = ((x.toNat * regs.pm32.toNat % 2 ^ 32 ^^^ p.2.xk.toNat) + p.2.ak.toNat) % 2 ^ 32) ∧
  ∀ s regs x, s.phase = .ready regs → s.ops.x64in = some x →
    ∀ p ∈ [(Instr.obfU64, regs.u64), (.obfS64, regs.s64)],
      ∃ y, exec p.1 s = .next (done s { x64out := some y }) ∧
        y.toNat = ((x.toNat * regs.pm64.toNat % 2 ^ 64 ^^^ p.2.xk.toNat) + p.2.ak.toNat) % 2 ^ 64

/-- R151, R157 to R160: DEOBF undoes add, XOR and multiply modulo 2^32 in a 32-bit engine and modulo 2^64 in a
64-bit engine. -/
def Obligations.DeobfUndoesTheStages : Prop :=
  (∀ s regs y, s.phase = .ready regs → s.ops.x32in = some y →
    ∀ p ∈ [(Instr.deobfU32, regs.u32), (.deobfS32, regs.s32)],
      ∃ x, exec p.1 s = .next (done s { x32out := some x }) ∧
        x.toNat = ((((y.toNat : Int) - p.2.ak.toNat) % 2 ^ 32).toNat ^^^ p.2.xk.toNat) * regs.pinv32.toNat % 2 ^ 32) ∧
  ∀ s regs y, s.phase = .ready regs → s.ops.x64in = some y →
    ∀ p ∈ [(Instr.deobfU64, regs.u64), (.deobfS64, regs.s64)],
      ∃ x, exec p.1 s = .next (done s { x64out := some x }) ∧
        x.toNat = ((((y.toNat : Int) - p.2.ak.toNat) % 2 ^ 64).toNat ^^^ p.2.xk.toNat) * regs.pinv64.toNat % 2 ^ 64

/-- R152: with the same engine each direction undoes the other, for every pattern. -/
def Obligations.ScrambleAndUnscrambleAreInverse : Prop :=
  ∀ regs, RegsSound regs →
    (∀ p ∈ [(Instr.obfU32, Instr.deobfU32), (.deobfU32, .obfU32), (.obfS32, .deobfS32), (.deobfS32, .obfS32)],
      ∀ s x, s.phase = .ready regs → s.ops.x32in = some x →
        ∃ y, exec p.1 s = .next (done s { x32out := some y }) ∧
          ∀ u, u.phase = .ready regs → u.ops.x32in = some y →
            exec p.2 u = .next (done u { x32out := some x })) ∧
    ∀ p ∈ [(Instr.obfU64, Instr.deobfU64), (.deobfU64, .obfU64), (.obfS64, .deobfS64), (.deobfS64, .obfS64)],
      ∀ s x, s.phase = .ready regs → s.ops.x64in = some x →
        ∃ y, exec p.1 s = .next (done s { x64out := some y }) ∧
          ∀ u, u.phase = .ready regs → u.ops.x64in = some y →
            exec p.2 u = .next (done u { x64out := some x })

/-- R146, R152: every engine is a bijection on the patterns of its width. -/
def Obligations.EnginesAreBijections : Prop :=
  ∀ regs, RegsSound regs →
    Function.Bijective (obfOfU32 regs) ∧ Function.Bijective (obfOfS32 regs) ∧
      Function.Bijective (obfOfU64 regs) ∧ Function.Bijective (obfOfS64 regs)

/-- R162: without XOR and add stage and with an odd multiplier, 0 and 2^(W-1) are fixed points; when 2^j is the
largest power of two dividing the multiplier less one, the fixed points are the multiples of 2^(W-j); with the
stages, 0 goes to XK + AK. -/
def Obligations.FixedPointsOfAnEngine : Prop :=
  ∀ (w : Nat) (pm : BitVec w) (k : EngineConst w), 0 < w → pm.toNat % 2 = 1 →
    obf pm k 0 = k.xk + k.ak ∧
    (PlainEngine k →
      obf pm k 0 = 0 ∧ obf pm k (BitVec.twoPow w (w - 1)) = BitVec.twoPow w (w - 1) ∧
      (∀ x, pm = 1 → obf pm k x = x) ∧
      ∀ j, 2 ^ j ∣ pm.toNat - 1 → ¬ 2 ^ (j + 1) ∣ pm.toNat - 1 →
        ∀ x, obf pm k x = x ↔ 2 ^ (w - j) ∣ x.toNat)

/-- R163: without an XOR stage consecutive inputs go to outputs one multiplier apart. -/
def Obligations.ConstantStride : Prop :=
  ∀ (w : Nat) (pm : BitVec w) (k : EngineConst w) (x : BitVec w), k.xk = 0 →
    obf pm k (x + 1) - obf pm k x = pm

/-- R164: without XOR and add stages the low half of a 64-bit result is the 32-bit result of the low half. -/
def Obligations.WidthsAgreeOnTheLowHalf : Prop :=
  ∀ regs, RegsSound regs → PlainEngine regs.u32 → PlainEngine regs.u64 →
    ∀ x, (obfOfU64 regs x).setWidth 32 = obfOfU32 regs (x.setWidth 32)

/-- R148, R9: a signed value enters as its two's-complement pattern and leaves as the signed reading of the
result; without XOR and add stages that is the signed product reduced into the signed range. -/
def Obligations.SignedEnginesReadTwosComplement : Prop :=
  ∀ regs, PlainEngine regs.s32 → PlainEngine regs.s64 →
    (∀ z : Int, -2 ^ 31 ≤ z → z < 2 ^ 31 →
      toS (toU 32 z) = z ∧ toS (obfOfS32 regs (toU 32 z)) = (z * regs.pm32.toNat).bmod (2 ^ 32)) ∧
    ∀ z : Int, -2 ^ 63 ≤ z → z < 2 ^ 63 →
      toS (toU 64 z) = z ∧ toS (obfOfS64 regs (toU 64 z)) = (z * regs.pm64.toNat).bmod (2 ^ 64)

/-! The composed commands -/

/-- R171, R172, R173 to R176: OBFENC writes the words of the scrambled pattern, read as unsigned, at the smallest
valid width that holds it. -/
def Obligations.ObfencWritesTheScrambledWords : Prop :=
  (∀ s regs x, s.phase = .ready regs → s.ops.x32in = some x →
    ∀ p ∈ [(Instr.obfencU32, (obfOfU32 regs x).toNat), (.obfencS32, (obfOfS32 regs x).toNat)],
      ∃ k, 0 < k ∧ p.2 < 2 ^ (32 * k) ∧ (∀ j, 0 < j → p.2 < 2 ^ (32 * j) → k ≤ j) ∧
        exec p.1 s = .next (done s
          { wout := some (frameWords regs.rom (p.2 * 2 ^ k + ck Config.cfg (32 * k) (bytesBE p.2 (4 * k))) k) })) ∧
  ∀ s regs x, s.phase = .ready regs → s.ops.x64in = some x →
    ∀ p ∈ [(Instr.obfencU64, (obfOfU64 regs x).toNat), (.obfencS64, (obfOfS64 regs x).toNat)],
      ∃ k, 0 < k ∧ p.2 < 2 ^ (32 * k) ∧ (∀ j, 0 < j → p.2 < 2 ^ (32 * j) → k ≤ j) ∧
        exec p.1 s = .next (done s
          { wout := some (frameWords regs.rom (p.2 * 2 ^ k + ck Config.cfg (32 * k) (bytesBE p.2 (4 * k))) k) })

/-- The width that OBFENC chooses (43_composed.md R172, an inference the spec draws from R112): a 32-bit engine
always writes 3 words at width 32, a 64-bit engine 3 words when the scrambled pattern is below 2^32 and otherwise 6
words at width 64. -/
def Obligations.ObfencWritesThreeOrSixWords : Prop :=
  (∀ s regs x, s.phase = .ready regs → s.ops.x32in = some x →
    ∀ p ∈ [(Instr.obfencU32, (obfOfU32 regs x).toNat), (.obfencS32, (obfOfS32 regs x).toNat)],
      exec p.1 s = .next (done s
        { wout := some (frameWords regs.rom (p.2 * 2 + ck Config.cfg 32 (bytesBE p.2 4)) 1) })) ∧
  ∀ s regs x, s.phase = .ready regs → s.ops.x64in = some x →
    ∀ p ∈ [(Instr.obfencU64, (obfOfU64 regs x).toNat), (.obfencS64, (obfOfS64 regs x).toNat)],
      exec p.1 s = .next (done s
        { wout := some (if p.2 < 2 ^ 32 then frameWords regs.rom (p.2 * 2 + ck Config.cfg 32 (bytesBE p.2 4)) 1
            else frameWords regs.rom (p.2 * 4 + ck Config.cfg 64 (bytesBE p.2 8)) 2) })

/-- R177, R178 to R181: DECDEOBF ends with InvalidWord for an unknown word or a bad count; on the words of the frame
`{e, x}` of any width it ends with InvalidChecksum when `x` is not the checksum of `e`, then with NarrowOverflow
when `e` does not fit the engine's width, and else gives `e` unscrambled. -/
def Obligations.DecdeobfNarrowsAndUnscrambles : Prop :=
  ∀ s regs ws, s.phase = .ready regs → WinHolds s ws →
    (((∃ t ∈ ws, ∀ g, romWord regs.rom g ≠ t) ∨ ws.length = 0 ∨ ws.length % 3 ≠ 0) →
      ∀ i ∈ [Instr.decdeobfU32, .decdeobfS32, .decdeobfU64, .decdeobfS64],
        exec i s = .next (failed s .invalidWord)) ∧
    ∀ k e x : Nat, 0 < k → e < 2 ^ (32 * k) → x < 2 ^ k → ws = frameWords regs.rom (e * 2 ^ k + x) k →
      (∀ p ∈ [(Instr.decdeobfU32, deobfOfU32 regs (BitVec.ofNat 32 e)),
          (.decdeobfS32, deobfOfS32 regs (BitVec.ofNat 32 e))],
        exec p.1 s = .next
          (if ck Config.cfg (32 * k) (bytesBE e (4 * k)) ≠ x then failed s .invalidChecksum
           else if 2 ^ 32 ≤ e then failed s .narrowOverflow else done s { x32out := some p.2 })) ∧
      ∀ p ∈ [(Instr.decdeobfU64, deobfOfU64 regs (BitVec.ofNat 64 e)),
          (.decdeobfS64, deobfOfS64 regs (BitVec.ofNat 64 e))],
        exec p.1 s = .next
          (if ck Config.cfg (32 * k) (bytesBE e (4 * k)) ≠ x then failed s .invalidChecksum
           else if 2 ^ 64 ≤ e then failed s .narrowOverflow else done s { x64out := some p.2 })

/-- R182: DECDEOBF.k reads back what OBFENC.k wrote, for every engine and every pattern. -/
def Obligations.ComposedRoundTrip : Prop :=
  ∀ regs, RegsSound regs →
    (∀ p ∈ [(Instr.obfencU32, Instr.decdeobfU32), (.obfencS32, .decdeobfS32)],
      ∀ s x, s.phase = .ready regs → s.ops.x32in = some x →
        ∃ ws, exec p.1 s = .next (done s { wout := some ws }) ∧
          ∀ u, u.phase = .ready regs → WinHolds u ws →
            exec p.2 u = .next (done u { x32out := some x })) ∧
    ∀ p ∈ [(Instr.obfencU64, Instr.decdeobfU64), (.obfencS64, .decdeobfS64)],
      ∀ s x, s.phase = .ready regs → s.ops.x64in = some x →
        ∃ ws, exec p.1 s = .next (done s { wout := some ws }) ∧
          ∀ u, u.phase = .ready regs → WinHolds u ws →
            exec p.2 u = .next (done u { x64out := some x })

/-- R183: OBFENC.k writes the words that OBF.k, a copy of its result to VIN as unsigned, and ENCA would write. -/
def Obligations.ObfencIsObfThenEnca : Prop :=
  ∀ s u regs, s.phase = .ready regs → u.phase = .ready regs →
    (∀ p ∈ [(Instr.obfencU32, Instr.obfU32), (.obfencS32, .obfS32)], ∀ x y, s.ops.x32in = some x →
      exec p.2 s = .next (done s { x32out := some y }) → u.ops.vin = some y.toNat →
      ∃ ws, exec p.1 s = .next (done s { wout := some ws }) ∧ exec .enca u = .next (done u { wout := some ws })) ∧
    ∀ p ∈ [(Instr.obfencU64, Instr.obfU64), (.obfencS64, .obfS64)], ∀ x y, s.ops.x64in = some x →
      exec p.2 s = .next (done s { x64out := some y }) → u.ops.vin = some y.toNat →
      ∃ ws, exec p.1 s = .next (done s { wout := some ws }) ∧ exec .enca u = .next (done u { wout := some ws })

/-- R183: DECDEOBF.k writes what DEC, a copy of VOUT to the operand register, and DEOBF.k would write. -/
def Obligations.DecdeobfIsDecThenDeobf : Prop :=
  ∀ s u regs e k, s.phase = .ready regs → u.phase = .ready regs →
    exec .dec s = .next (done s { vout := some e, bwout := some k }) →
    (∀ p ∈ [(Instr.decdeobfU32, Instr.deobfU32), (.decdeobfS32, .deobfS32)], ∀ y : BitVec 32,
      e = y.toNat → u.ops.x32in = some y →
      ∃ x, exec p.1 s = .next (done s { x32out := some x }) ∧ exec p.2 u = .next (done u { x32out := some x })) ∧
    ∀ p ∈ [(Instr.decdeobfU64, Instr.deobfU64), (.decdeobfS64, .deobfS64)], ∀ y : BitVec 64,
      e = y.toNat → u.ops.x64in = some y →
      ∃ x, exec p.1 s = .next (done s { x64out := some x }) ∧ exec p.2 u = .next (done u { x64out := some x })
end

