-- ==== Sys2Proof/Laws/Bits.lean ====
section
/-! SUPPORT. What the bit length and the two byte conversions do. -/

namespace Sys2Proof.Machine

/-- `bitlen(v)` is the least number of bits that holds `v`. -/
theorem bitlen_le_iff (v n : Nat) : bitlen v ≤ n ↔ v < 2 ^ n := by
  unfold bitlen
  split
  · subst v; simp
  · rename_i h
    rw [← Nat.log2_lt h]
    omega

theorem lt_two_pow_bitlen (v : Nat) : v < 2 ^ bitlen v := (bitlen_le_iff v _).1 le_rfl

@[simp] theorem length_bytesBE (v n : Nat) : (bytesBE v n).length = n := by simp [bytesBE]

/-- The left fold of `intBE` started at `a` moves `a` up by the bytes read. -/
theorem foldl_bytes (bs : List Byte) (a : Nat) :
    bs.foldl (fun a b => a * 256 + b.toNat) a = a * 256 ^ bs.length + intBE bs := by
  induction bs generalizing a with
  | nil => simp [intBE]
  | cons b bs ih =>
    rw [intBE, List.foldl_cons, List.foldl_cons, ih, ih (0 * 256 + b.toNat), List.length_cons, Nat.pow_succ]
    ring

theorem intBE_cons (b : Byte) (bs : List Byte) :
    intBE (b :: bs) = b.toNat * 256 ^ bs.length + intBE bs := by
  rw [intBE, List.foldl_cons, foldl_bytes]
  simp

/-- A byte string reads as a number below `256` to its length. -/
theorem intBE_lt (bs : List Byte) : intBE bs < 256 ^ bs.length := by
  induction bs with
  | nil => simp [intBE]
  | cons b bs ih =>
    rw [intBE_cons, List.length_cons, Nat.pow_succ]
    have hb : b.toNat ≤ 255 := by omega
    nlinarith

theorem bytesBE_succ (v n : Nat) :
    bytesBE v (n + 1) = BitVec.ofNat 8 (v / 2 ^ (8 * n)) :: bytesBE v n := by
  simp only [bytesBE, List.range_succ_eq_map, List.map_cons, List.map_map]
  refine congrArg₂ _ (by simp) (List.map_congr_left fun j _ => ?_)
  simp only [Function.comp]
  congr 4
  omega

/-- `intBE` undoes `bytesBE`, up to the bytes that `bytesBE` drops (R11). -/
theorem intBE_bytesBE (v n : Nat) : intBE (bytesBE v n) = v % 2 ^ (8 * n) := by
  induction n with
  | zero => simp [bytesBE, intBE, Nat.mod_one]
  | succ n ih =>
    rw [bytesBE_succ, intBE_cons, ih, length_bytesBE, BitVec.toNat_ofNat,
      show (256 : Nat) ^ n = 2 ^ (8 * n) by rw [pow_mul]; norm_num,
      show 2 ^ (8 * (n + 1)) = 2 ^ (8 * n) * 2 ^ 8 by rw [← pow_add]; ring_nf, Nat.mod_mul]
    ring

end Sys2Proof.Machine
end

