-- ==== Sys2Proof/Laws/State.lean ====
section
/-! SUPPORT. One lemma per field per update of the state, each by unfolding. -/

namespace Sys2Proof.Machine

variable (s : State)

section Raise
variable (k : ErrKind)
@[simp] theorem raise_ops : (raise k s).ops = s.ops := rfl
@[simp] theorem raise_status : (raise k s).status = .error k := rfl
@[simp] theorem raise_res : (raise k s).res = {} := rfl
@[simp] theorem raise_phase : (raise k s).phase = s.phase := rfl
@[simp] theorem raise_host : (raise k s).host = s.host := rfl
@[simp] theorem raise_initWait : (raise k s).initWait = s.initWait := rfl
@[simp] theorem raise_resets : (raise k s).resets = s.resets := rfl
end Raise

section Succeed
variable (r : Results)
@[simp] theorem succeed_ops : (succeed r s).ops = s.ops := rfl
@[simp] theorem succeed_status : (succeed r s).status = .ok := rfl
@[simp] theorem succeed_res : (succeed r s).res = r := rfl
@[simp] theorem succeed_phase : (succeed r s).phase = s.phase := rfl
@[simp] theorem succeed_host : (succeed r s).host = s.host := rfl
@[simp] theorem succeed_initWait : (succeed r s).initWait = s.initWait := rfl
@[simp] theorem succeed_resets : (succeed r s).resets = s.resets := rfl
end Succeed

section Finish
@[simp] theorem finish_ok (r : Results) : finish s (.ok r) = succeed r s := rfl
@[simp] theorem finish_error (k : ErrKind) : finish s (.error k) = raise k s := rfl
variable (x : Except ErrKind Results)
@[simp] theorem finish_ops : (finish s x).ops = s.ops := by cases x <;> rfl
@[simp] theorem finish_phase : (finish s x).phase = s.phase := by cases x <;> rfl
@[simp] theorem finish_host : (finish s x).host = s.host := by cases x <;> rfl
@[simp] theorem finish_initWait : (finish s x).initWait = s.initWait := by cases x <;> rfl
@[simp] theorem finish_resets : (finish s x).resets = s.resets := by cases x <;> rfl
end Finish

section WriteOperand
variable (w : OperandWrite)
@[simp] theorem writeOperand_status : (s.writeOperand w).status = s.status := by cases w <;> rfl
@[simp] theorem writeOperand_res : (s.writeOperand w).res = s.res := by cases w <;> rfl
@[simp] theorem writeOperand_phase : (s.writeOperand w).phase = s.phase := by cases w <;> rfl
@[simp] theorem writeOperand_host : (s.writeOperand w).host = s.host := by cases w <;> rfl
@[simp] theorem writeOperand_initWait : (s.writeOperand w).initWait = s.initWait := by cases w <;> rfl
@[simp] theorem writeOperand_resets : (s.writeOperand w).resets = s.resets := by cases w <;> rfl
end WriteOperand

section PassLine
@[simp] theorem passLine_ops : s.passLine.ops = s.ops := rfl
@[simp] theorem passLine_status : s.passLine.status = s.status := rfl
@[simp] theorem passLine_res : s.passLine.res = s.res := rfl
@[simp] theorem passLine_phase : s.passLine.phase = s.phase := rfl
@[simp] theorem passLine_line : s.passLine.host.line = s.host.line + 1 := rfl
@[simp] theorem passLine_program : s.passLine.host.program = s.host.program := rfl
@[simp] theorem passLine_seen : s.passLine.host.seen = s.host.seen := rfl
@[simp] theorem passLine_resets : s.passLine.resets = s.resets := rfl
end PassLine

section Jump
variable (label : Nat)
@[simp] theorem jump_ops : (s.jump label).ops = s.ops := rfl
@[simp] theorem jump_status : (s.jump label).status = s.status := rfl
@[simp] theorem jump_res : (s.jump label).res = s.res := rfl
@[simp] theorem jump_phase : (s.jump label).phase = s.phase := rfl
@[simp] theorem jump_line : (s.jump label).host.line = label := rfl
@[simp] theorem jump_program : (s.jump label).host.program = s.host.program := rfl
end Jump

section Receive
variable (v : HostValue)
@[simp] theorem receive_ops : (s.receive v).ops = s.ops := rfl
@[simp] theorem receive_status : (s.receive v).status = s.status := rfl
@[simp] theorem receive_res : (s.receive v).res = s.res := rfl
@[simp] theorem receive_phase : (s.receive v).phase = s.phase := rfl
@[simp] theorem receive_seen : (s.receive v).host.seen = v :: s.host.seen := rfl
end Receive

section Initialise
variable (c : Cfg)
@[simp] theorem initialise_ops : (initialise c s).ops = s.ops := rfl
@[simp] theorem initialise_status : (initialise c s).status = s.status := rfl
@[simp] theorem initialise_res : (initialise c s).res = s.res := rfl
@[simp] theorem initialise_phase : (initialise c s).phase = initialPhase c := rfl
@[simp] theorem initialise_host : (initialise c s).host = s.host := rfl
end Initialise

section ResetBlock
@[simp] theorem resetBlock_ops : (resetBlock s).ops = {} := rfl
@[simp] theorem resetBlock_status : (resetBlock s).status = .ok := rfl
@[simp] theorem resetBlock_res : (resetBlock s).res = {} := rfl
@[simp] theorem resetBlock_phase : (resetBlock s).phase = .reset := rfl
@[simp] theorem resetBlock_host : (resetBlock s).host = s.host := rfl
end ResetBlock

end Sys2Proof.Machine
end

