-- ==== Sys2Proof/Laws/Memory.lean ====
section
/-! SUPPORT. Forward and reverse lookup are inverse, and memory operations keep the memory's form. -/

namespace Sys2Proof.Machine

theorem rom_nodup (rom : Rom) : rom.words.Nodup := by
  simpa [wordlistDistinct] using rom.distinct

/-- What a reverse lookup answers, exactly: the entry that holds the Token (20_memory.md R55). -/
theorem romIndex_eq_some_iff (rom : Rom) (t : Token) (g : Index) :
    romIndex rom t = some g ↔ romWord rom g = t := by
  unfold romIndex romWord
  constructor
  · intro h
    split at h
    · rename_i i hi
      split at h
      · rename_i hlt
        cases h
        obtain ⟨hl, heq, -⟩ := List.idxOf?_eq_some_iff.1 hi
        simpa using heq
      · cases h
    · cases h
  · rintro rfl
    have hmem : rom.words.get (g.cast (rom_length rom).symm) ∈ rom.words := List.get_mem _ _
    have hidx : rom.words.idxOf? (rom.words.get (g.cast (rom_length rom).symm)) = some g.val := by
      rw [List.idxOf?_eq_some_iff]
      refine ⟨by rw [rom_length]; exact g.isLt, by simp, fun j hj heq => ?_⟩
      exact absurd ((rom_nodup rom).getElem_inj_iff.1 heq) (Nat.ne_of_lt hj)
    rw [hidx]
    simp

/-- `INDEX(MemRead(WROM:g, 1)) = g` (R55). -/
@[simp] theorem romIndex_romWord (rom : Rom) (g : Index) : romIndex rom (romWord rom g) = some g :=
  (romIndex_eq_some_iff ..).2 rfl

theorem romWord_injective (rom : Rom) : Function.Injective (romWord rom) := fun a b h => by
  simpa using congrArg (romIndex rom) h

/-- A word is known exactly when it stands in the ROM. -/
theorem romIndex_eq_none_iff (rom : Rom) (t : Token) : romIndex rom t = none ↔ t ∉ rom.words := by
  rw [Option.eq_none_iff_forall_ne_some]
  constructor
  · intro h hmem
    obtain ⟨i, hi, rfl⟩ := List.getElem_of_mem hmem
    exact h ⟨i, rom_length rom ▸ hi⟩ ((romIndex_eq_some_iff ..).2 (by simp [romWord]))
  · intro h g hg
    exact h ((romIndex_eq_some_iff ..).1 hg ▸ List.get_mem _ _)

theorem romWord_mem (rom : Rom) (g : Index) : romWord rom g ∈ rom.words := List.get_mem _ _

/-- `MemRead(WROM:i, 1)` in phase `READY` is the ROM's word (R51). -/
theorem memRead_wrom {s : State} {regs : ConfigRegs} (h : s.phase = .ready regs) (g : Index) :
    s.memRead .wrom g.val = some (romWord regs.rom g) := by
  simp only [State.memRead, State.entries, h]
  rw [List.getElem?_eq_getElem (by rw [rom_length]; exact g.isLt)]
  simp [romWord]

/-- `MemRead(WROM:g, 1)` in phase `FATAL` is a free value (log entry 17). -/
theorem memRead_wrom_fatal {s : State} (h : s.phase = .fatal) (g : Index) :
    s.memRead .wrom g.val = some ((Config.fatalWrom s.resets).get g) := by
  simp only [State.memRead, State.entries, h]
  rw [List.getElem?_eq_getElem (by simp)]
  simp [Vector.get_eq_getElem]

/-- An entry of WROM has no value exactly in phase `RESET` (10_state.md R46). -/
theorem memRead_wrom_eq_none_iff (s : State) (g : Index) : s.memRead .wrom g.val = none ↔ s.phase = .reset := by
  cases h : s.phase with
  | reset => simp [State.memRead, State.entries, h]
  | ready r => simp [memRead_wrom h]
  | fatal => simp [memRead_wrom_fatal h]

/-- The host's write of WIN does not touch the other two spaces. -/
theorem storeWin_memRead {s : State} (ts : List Token) :
    (∀ i, (s.storeWin ts).memRead .wrom i = s.memRead .wrom i) ∧
      (∀ i, (s.storeWin ts).memRead .wout i = s.memRead .wout i) ∧
      (∀ i, (s.storeWin ts).memRead .win i = ts[i]?) :=
  ⟨fun _ => rfl, fun _ => rfl, fun i => by simp [State.memRead, State.entries, State.storeWin]⟩

/-- After a write of WINLEN alone the entries below it are those of the buffer, and no others can be read. -/
theorem storeWinlen_memRead {s : State} (n : Nat) :
    (∀ i, (s.storeWinlen n).memRead .wrom i = s.memRead .wrom i) ∧
      (∀ i, (s.storeWinlen n).memRead .wout i = s.memRead .wout i) ∧
      (∀ i, (s.storeWinlen n).memRead .win i = if i < n then s.ops.win[i]? else none) :=
  ⟨fun _ => rfl, fun _ => rfl, fun i => by
    simp [State.memRead, State.entries, State.storeWinlen, List.getElem?_take]⟩

theorem Memory.wf_congr {s t : State} (hp : t.phase = s.phase) (hr : t.res.wout = s.res.wout) :
    Memory.wf t = Memory.wf s := by
  simp [Memory.wf, hp, hr]

/-- A state without words in WOUT has well-formed memory, whatever its phase. -/
theorem Memory.wf_of_wout_none {s : State} (h : s.res.wout = none) : Memory.wf s = true := by
  unfold Memory.wf
  cases hp : s.phase <;> simp [h, Rom.size, Rom.distinct]

/-- Storing words of the ROM, a positive multiple of 3 of them, gives well-formed memory. -/
theorem Memory.wf_of_wout_some {s : State} {regs : ConfigRegs} {ws : List Token}
    (hp : s.phase = .ready regs) (hw : s.res.wout = some ws) (h3 : ws.length % 3 = 0) (h0 : ws ≠ [])
    (hmem : ∀ t ∈ ws, t ∈ regs.rom.words) : Memory.wf s = true := by
  simp only [Memory.wf, hp, hw, Rom.size, Rom.distinct, h3]
  simpa [h0] using hmem

theorem reset_memory_wf : Memory.wf State.reset = true := Memory.wf_of_wout_none rfl

theorem storeWin_memory_wf {s : State} (ts : List Token) (h : Memory.wf s = true) :
    Memory.wf (s.storeWin ts) = true :=
  (Memory.wf_congr (s := s) rfl rfl).trans h

theorem writeOperand_memory_wf {s : State} (w : OperandWrite) (h : Memory.wf s = true) :
    Memory.wf (s.writeOperand w) = true := by
  rw [Memory.wf_congr (s := s) (by simp) (by simp), h]

theorem raise_memory_wf (k : ErrKind) (s : State) : Memory.wf (raise k s) = true :=
  Memory.wf_of_wout_none rfl

theorem resetBlock_memory_wf (s : State) : Memory.wf (resetBlock s) = true :=
  Memory.wf_of_wout_none rfl

theorem initialise_memory_wf (c : Cfg) {s : State} (h : s.res.wout = none) :
    Memory.wf (initialise c s) = true :=
  Memory.wf_of_wout_none h

end Sys2Proof.Machine
end

