-- ==== Sys2Proof/Laws/Codec.lean ====
section
/-! SUPPORT. What each function of the codec does: width helper, groups and join, the two lookups over lists,
the checksum's bound, decoding a frame. -/

namespace Sys2Proof.Machine

/-- `rup32` answers a multiple of 32, at least 32 and at least `n`, and less than 32 above it. -/
theorem rup32_spec (n : Nat) :
    rup32 n % 32 = 0 ∧ 32 ≤ rup32 n ∧ n ≤ rup32 n ∧ ∀ m, 0 < m → m % 32 = 0 → n ≤ m → rup32 n ≤ m := by
  unfold rup32
  split
  · refine ⟨by omega, by omega, by omega, fun m _ _ _ => by omega⟩
  · refine ⟨by omega, by omega, by omega, fun m _ _ _ => by omega⟩

@[simp] theorem length_groups (t n : Nat) : (groups t n).length = n := by simp [groups]

theorem foldl_groups (gs : List Index) (a : Nat) :
    gs.foldl (fun t g => t * 2048 + g.val) a = a * 2048 ^ gs.length + join gs := by
  induction gs generalizing a with
  | nil => simp [join]
  | cons g gs ih =>
    rw [join, List.foldl_cons, List.foldl_cons, ih, ih (0 * 2048 + g.val), List.length_cons, Nat.pow_succ]
    ring

theorem join_cons (g : Index) (gs : List Index) :
    join (g :: gs) = g.val * 2048 ^ gs.length + join gs := by
  rw [join, List.foldl_cons, foldl_groups]
  simp

theorem join_lt (gs : List Index) : join gs < 2048 ^ gs.length := by
  induction gs with
  | nil => simp [join]
  | cons g gs ih =>
    rw [join_cons, List.length_cons, Nat.pow_succ]
    have hg := g.isLt
    nlinarith

theorem two_pow_groups (n : Nat) : (2 : Nat) ^ (11 * n) = 2048 ^ n := by
  rw [pow_mul]; norm_num

theorem groups_succ (t n : Nat) :
    groups t (n + 1) = ⟨t / 2 ^ (11 * n) % 2048, Nat.mod_lt _ (by decide)⟩ :: groups t n := by
  simp only [groups, List.range_succ_eq_map, List.map_cons, List.map_map]
  refine congrArg₂ _ (by simp) (List.map_congr_left fun j _ => ?_)
  simp only [Function.comp, Fin.mk.injEq]
  congr 3
  omega

/-- Join undoes the group split, up to the bits the split drops (40_codec.md R106). -/
theorem join_groups (t n : Nat) : join (groups t n) = t % 2 ^ (11 * n) := by
  induction n with
  | zero => simp [groups, join, Nat.mod_one]
  | succ n ih =>
    rw [groups_succ, join_cons, ih, length_groups, ← two_pow_groups,
      show 2 ^ (11 * (n + 1)) = 2 ^ (11 * n) * 2048 by rw [mul_add, pow_add]; norm_num, Nat.mod_mul]
    ring

/-- The group split sees only the low bits that its groups cover. -/
theorem groups_mod (t n m : Nat) (h : n ≤ m) : groups (t % 2 ^ (11 * m)) n = groups t n := by
  induction n with
  | zero => simp [groups]
  | succ n ih =>
    rw [groups_succ, groups_succ, ih (by omega)]
    congr 2
    rw [show 11 * m = 11 * n + (11 * (m - n - 1) + 11) by omega, pow_add, Nat.mod_mul_right_div_self, pow_add]
    exact Nat.mod_mul_left_mod ..

/-- The group split undoes join (R106). -/
theorem groups_join (gs : List Index) : groups (join gs) gs.length = gs := by
  induction gs with
  | nil => rfl
  | cons g gs ih =>
    have hlt := join_lt gs
    rw [List.length_cons, groups_succ]
    congr 1
    · ext
      simp only [join_cons, two_pow_groups]
      rw [mul_comm, Nat.mul_add_div (by positivity), Nat.div_eq_of_lt hlt, add_zero,
        Nat.mod_eq_of_lt g.isLt]
    · rw [← groups_mod _ _ _ le_rfl, join_cons, two_pow_groups, Nat.mul_add_mod_self_right,
        Nat.mod_eq_of_lt hlt, ih]

/-- `indicesOf(wordsOf(G)) = G` (R107). -/
@[simp] theorem indicesOf_wordsOf (rom : Rom) (gs : List Index) :
    indicesOf rom (wordsOf rom gs) = some gs := by
  induction gs with
  | nil => rfl
  | cons g gs ih =>
    change indicesOf rom (romWord rom g :: wordsOf rom gs) = _
    simp [indicesOf, ih]

/-- The list lookup succeeds exactly on the words of an index list. -/
theorem indicesOf_eq_some {rom : Rom} {ws : List Token} {gs : List Index}
    (h : indicesOf rom ws = some gs) : wordsOf rom gs = ws := by
  induction ws generalizing gs with
  | nil => cases h; rfl
  | cons t ts ih =>
    simp only [indicesOf] at h
    split at h
    · rename_i g gs' hg hgs
      cases h
      change romWord rom g :: wordsOf rom gs' = _
      rw [(romIndex_eq_some_iff ..).1 hg, ih hgs]
    · cases h

/-- The list lookup fails exactly when some word is unknown (R115). -/
theorem indicesOf_eq_none_iff (rom : Rom) (ws : List Token) :
    indicesOf rom ws = none ↔ ∃ t ∈ ws, romIndex rom t = none := by
  induction ws with
  | nil => simp [indicesOf]
  | cons t ts ih =>
    rw [List.exists_mem_cons_iff, ← ih]
    simp only [indicesOf]
    cases romIndex rom t <;> cases indicesOf rom ts <;> simp

@[simp] theorem length_wordsOf (rom : Rom) (gs : List Index) : (wordsOf rom gs).length = gs.length := by
  simp [wordsOf]

theorem wordsOf_mem (rom : Rom) (gs : List Index) : ∀ t ∈ wordsOf rom gs, t ∈ rom.words := by
  simp only [wordsOf, List.mem_map]
  rintro t ⟨g, -, rfl⟩
  exact romWord_mem rom g

/-- The checksum has `ENT/32` bits (41_checksum.md R135 a). -/
theorem ck_lt (c : Cfg) (ent : Nat) (bs : List Byte) : ck c ent bs < 2 ^ (ent / 32) := by
  unfold ck
  split
  · rename_i h
    rw [Nat.div_lt_iff_lt_mul (by positivity), ← pow_add, Nat.add_sub_cancel' h]
    have := intBE_lt (c.hash bs).toList
    rwa [Vector.length_toList, show (256 : Nat) = 2 ^ 8 by norm_num, ← pow_mul] at this
  · exact BitVec.isLt _

/-- The frame splits back into entropy and checksum (40_codec.md R117). -/
theorem frame_split (c : Cfg) (e ent : Nat) :
    frame c e ent / 2 ^ (ent / 32) = e ∧
      frame c e ent % 2 ^ (ent / 32) = ck c ent (bytesBE e (ent / 8)) := by
  have h := ck_lt c ent (bytesBE e (ent / 8))
  unfold frame
  constructor
  · rw [mul_comm, Nat.mul_add_div (by positivity), Nat.div_eq_of_lt h, add_zero]
  · rw [Nat.mul_add_mod_self_right, Nat.mod_eq_of_lt h]

/-- An unknown word ends decoding (R115). -/
theorem decodeWords_unknown (c : Cfg) {rom : Rom} {ws : List Token} (h : ∃ t ∈ ws, romIndex rom t = none) :
    decodeWords c rom ws = .error .invalidWord := by
  simp [decodeWords, (indicesOf_eq_none_iff ..).2 h]

/-- A word count that is no positive multiple of 3 ends decoding, with the same kind (R116). -/
theorem decodeWords_badCount (c : Cfg) (rom : Rom) {ws : List Token} (h : ws.length = 0 ∨ ws.length % 3 ≠ 0) :
    decodeWords c rom ws = .error .invalidWord := by
  unfold decodeWords
  split
  · rfl
  · rw [if_pos h]

/-- DEC's body on known words: the count check, then the split and the verification (R114 to R118), written for
`3k` words without divisions. -/
theorem decodeWords_known (c : Cfg) {rom : Rom} {ws : List Token} {gs : List Index} {k : Nat}
    (hgs : indicesOf rom ws = some gs) (hlen : ws.length = 3 * k) (hk : 0 < k) :
    decodeWords c rom ws =
      if ck c (32 * k) (bytesBE (join gs / 2 ^ k) (4 * k)) = join gs % 2 ^ k
      then .ok (join gs / 2 ^ k, 32 * k) else .error .invalidChecksum := by
  simp only [decodeWords, hgs]
  rw [if_neg (by omega), show 11 * ws.length * 32 / 33 = 32 * k by omega,
    show 11 * ws.length / 33 = k by omega, show 32 * k / 8 = 4 * k by omega]
  split <;> simp_all

/-- DEC's body on the words of a frame `{e, x}` of width `32k`. -/
theorem decodeWords_frame (c : Cfg) (rom : Rom) {e x k : Nat} (hk : 0 < k) (he : e < 2 ^ (32 * k))
    (hx : x < 2 ^ k) :
    decodeWords c rom (wordsOf rom (groups (e * 2 ^ k + x) (3 * k))) =
      if ck c (32 * k) (bytesBE e (4 * k)) = x then .ok (e, 32 * k) else .error .invalidChecksum := by
  rw [decodeWords_known c (indicesOf_wordsOf ..) (by simp) hk, join_groups, Nat.mod_eq_of_lt,
    Nat.mul_add_mod_self_right, Nat.mod_eq_of_lt hx, mul_comm e, Nat.mul_add_div (by positivity),
    Nat.div_eq_of_lt hx, add_zero]
  rw [show 11 * (3 * k) = 32 * k + k by omega, pow_add]
  calc e * 2 ^ k + x < e * 2 ^ k + 2 ^ k := by omega
    _ = (e + 1) * 2 ^ k := by ring
    _ ≤ 2 ^ (32 * k) * 2 ^ k := Nat.mul_le_mul_right _ he

/-- What encoding writes: `3k` words of the frame of the low `32k` bits. -/
theorem encodeWords_eq (c : Cfg) (rom : Rom) (v k : Nat) :
    encodeWords c rom v (32 * k) =
      wordsOf rom (groups (v % 2 ^ (32 * k) * 2 ^ k + ck c (32 * k) (bytesBE (v % 2 ^ (32 * k)) (4 * k)))
        (3 * k)) := by
  simp only [encodeWords, frame, entropy]
  rw [show 32 * k / 32 = k by omega, show 32 * k / 8 = 4 * k by omega,
    show (32 * k + k) / 11 = 3 * k by omega]

/-- Decoding what encoding wrote answers the low `32k` bits and the width (R120). -/
theorem decodeWords_encodeWords (c : Cfg) (rom : Rom) (v : Nat) {k : Nat} (hk : 0 < k) :
    decodeWords c rom (encodeWords c rom v (32 * k)) = .ok (v % 2 ^ (32 * k), 32 * k) := by
  have hck := ck_lt c (32 * k) (bytesBE (v % 2 ^ (32 * k)) (4 * k))
  rw [show 32 * k / 32 = k by omega] at hck
  rw [encodeWords_eq, decodeWords_frame c rom hk (Nat.mod_lt _ (by positivity)) hck]
  simp

/-- What DEC's body answers, exactly: the words are those that encoding the answer at its width gives. -/
theorem decodeWords_ok {c : Cfg} {rom : Rom} {ws : List Token} {e ent : Nat}
    (h : decodeWords c rom ws = .ok (e, ent)) :
    ∃ k, 0 < k ∧ ent = 32 * k ∧ ws.length = 3 * k ∧ e < 2 ^ (32 * k) ∧ encodeWords c rom e (32 * k) = ws := by
  cases hgs : indicesOf rom ws with
  | none => simp [decodeWords, hgs] at h
  | some gs =>
    have hws := indicesOf_eq_some hgs
    have hlen : gs.length = ws.length := by rw [← hws]; simp
    by_cases hbad : ws.length = 0 ∨ ws.length % 3 ≠ 0
    · rw [decodeWords_badCount c rom hbad] at h
      cases h
    obtain ⟨k, hk⟩ : ∃ k, ws.length = 3 * k := ⟨ws.length / 3, by omega⟩
    rw [decodeWords_known c hgs hk (by omega)] at h
    split at h
    · rename_i hck
      simp only [Except.ok.injEq, Prod.mk.injEq] at h
      obtain ⟨rfl, rfl⟩ := h
      have hlt : join gs / 2 ^ k < 2 ^ (32 * k) := by
        rw [Nat.div_lt_iff_lt_mul (by positivity), ← pow_add, show 32 * k + k = 11 * (3 * k) by omega,
          two_pow_groups, ← hk, ← hlen]
        exact join_lt gs
      refine ⟨k, by omega, rfl, hk, hlt, ?_⟩
      rw [encodeWords_eq, Nat.mod_eq_of_lt hlt, hck, Nat.div_add_mod', ← hk, ← hlen, groups_join, hws]
    · cases h

/-- The width that EncodeAuto chooses is a positive multiple of 32 that holds the value (R113). -/
theorem autoWidth_spec (v : Nat) : ∃ k, 0 < k ∧ rup32 (bitlen v) = 32 * k ∧ v < 2 ^ (32 * k) := by
  obtain ⟨h32, hge, hle, -⟩ := rup32_spec (bitlen v)
  refine ⟨rup32 (bitlen v) / 32, by omega, by omega, ?_⟩
  rw [← bitlen_le_iff]
  omega

/-- Decoding what EncodeAuto wrote answers the value itself (R120 a). -/
theorem decodeWords_encodeAuto (c : Cfg) (rom : Rom) (v : Nat) :
    decodeWords c rom (encodeAuto c rom v) = .ok (v, rup32 (bitlen v)) := by
  obtain ⟨k, hk, hw, hv⟩ := autoWidth_spec v
  rw [encodeAuto, hw, decodeWords_encodeWords c rom v hk, Nat.mod_eq_of_lt hv]

end Sys2Proof.Machine
end

