-- ==== Sys2Proof/Laws/Permutation.lean ====
section
/-! SUPPORT. The modular inverse is an inverse, and the two directions of an engine undo each other. -/

namespace Sys2Proof.Machine

/-- Each round squares the error `1 - p * x`. -/
theorem newton_error {w : Nat} (p : BitVec w) (n : Nat) (x : BitVec w) :
    1 - p * newton p n x = (1 - p * x) ^ 2 ^ n := by
  induction n generalizing x with
  | zero => simp [newton]
  | succ n ih =>
    rw [newton, ih, pow_succ 2 n, mul_comm (2 ^ n) 2, pow_mul]
    congr 1
    ring

/-- An odd number is its own inverse modulo 8. -/
theorem odd_square_error (w : Nat) {n : Nat} (h : n % 2 = 1) :
    ∃ y : BitVec w, 1 - BitVec.ofNat w n * BitVec.ofNat w n = 8 * y := by
  obtain ⟨q, rfl⟩ : ∃ q, n = 2 * q + 1 := ⟨n / 2, by omega⟩
  obtain ⟨m, hm⟩ : ∃ m, q * (q + 1) = 2 * m := (Nat.even_mul_succ_self q).exists_two_nsmul _
  have hcast : (q : BitVec w) * (q + 1) = 2 * m := by exact_mod_cast congrArg (Nat.cast (R := BitVec w)) hm
  refine ⟨-(m : BitVec w), ?_⟩
  rw [show BitVec.ofNat w (2 * q + 1) = ((2 * q + 1 : Nat) : BitVec w) from rfl]
  push_cast
  linear_combination -4 * hcast

/-- The inverse of an odd number modulo `2^w`, for `w` up to 96 (10_state.md R39). -/
theorem mul_inverse {w : Nat} (hw : w ≤ 96) {n : Nat} (h : n % 2 = 1) :
    BitVec.ofNat w n * inverse (BitVec.ofNat w n) = 1 := by
  obtain ⟨y, hy⟩ := odd_square_error w h
  have herr := newton_error (BitVec.ofNat w n) 5 (BitVec.ofNat w n)
  have hzero : (8 : BitVec w) ^ 2 ^ 5 = 0 := by
    have : (8 : BitVec w) ^ 2 ^ 5 = BitVec.ofNat w (2 ^ 96) := by
      change ((8 : Nat) : BitVec w) ^ 32 = ((2 ^ 96 : Nat) : BitVec w)
      exact_mod_cast congrArg (Nat.cast (R := BitVec w)) (by norm_num : (8 : Nat) ^ 32 = 2 ^ 96)
    rw [this]
    apply BitVec.eq_of_toNat_eq
    simpa using Nat.mod_eq_zero_of_dvd (pow_dvd_pow 2 hw)
  rw [hy, mul_pow, hzero, zero_mul] at herr
  exact (sub_eq_zero.1 herr).symm

variable {w : Nat} {pm pinv : BitVec w}

/-- Unscrambling undoes scrambling (42_permutation.md R152). -/
theorem deobf_obf (h : pm * pinv = 1) (k : EngineConst w) (x : BitVec w) :
    deobf pinv k (obf pm k x) = x := by
  unfold deobf obf
  rw [add_sub_cancel_right, BitVec.xor_assoc, BitVec.xor_self, BitVec.xor_zero, mul_assoc, h, mul_one]

/-- Scrambling undoes unscrambling (R152). -/
theorem obf_deobf (h : pm * pinv = 1) (k : EngineConst w) (y : BitVec w) :
    obf pm k (deobf pinv k y) = y := by
  unfold deobf obf
  rw [mul_assoc, mul_comm pinv, h, mul_one, BitVec.xor_assoc, BitVec.xor_self, BitVec.xor_zero,
    sub_add_cancel]

/-- Without an XOR stage the forward function is the multiplication and the addition. -/
theorem obf_no_xor {k : EngineConst w} (hx : k.xk = 0) (x : BitVec w) : obf pm k x = x * pm + k.ak := by
  rw [obf, hx, show x * pm ^^^ 0 = x * pm from BitVec.xor_zero]

/-- The forward function on numbers, as R150 writes it. -/
theorem obf_toNat (k : EngineConst w) (x : BitVec w) :
    (obf pm k x).toNat = ((x.toNat * pm.toNat % 2 ^ w ^^^ k.xk.toNat) + k.ak.toNat) % 2 ^ w := by
  simp [obf, BitVec.toNat_add, BitVec.toNat_mul]

end Sys2Proof.Machine
end

