-- ==== Sys2Proof/Laws/Exec.lean ====
section
/-! SUPPORT. What a command can do, said once: outside `READY` nothing; in `READY` a fault for an unwritten
operand, or an end with results or an error kind that the spec's tables allow. -/

namespace Sys2Proof.Machine

open Sys2Proof.Safety

variable {s : State} {regs : ConfigRegs}

theorem whenReady_ready (h : s.phase = .ready regs) (body : ConfigRegs → Out) :
    whenReady s body = body regs := by
  simp [whenReady, h]

theorem whenReady_quiet (h : ∀ r, s.phase ≠ .ready r) (body : ConfigRegs → Out) :
    whenReady s body = .next s := by
  unfold whenReady
  split
  · rename_i r hr
    exact absurd hr (h r)
  all_goals rfl

@[simp] theorem readOperand_some {α : Type} (r : OperandReg) (a : α) (body : α → Out) :
    readOperand r (some a) body = body a := rfl

@[simp] theorem readOperand_none {α : Type} (r : OperandReg) (body : α → Out) :
    readOperand r none body = .fault (.unwrittenOperand r) := rfl

/-- A decoding command runs on the words that WIN holds. -/
theorem readWords_holds {ws : List Token} (h : WinHolds s ws) (body : List Token → Out) :
    readWords s.ops body = body ws := by
  obtain ⟨hn, hw⟩ := h
  have hle : ws.length ≤ s.ops.win.length := by
    have := congrArg List.length hw
    rw [List.length_take] at this
    omega
  simp [readWords, hn, hle, hw]

/-- The operands of a decoding command are written exactly when WIN holds some words. -/
theorem winHolds_of_written (hn : Operands.written s.ops .winlen = true) (hw : Operands.written s.ops .win = true) :
    ∃ ws, WinHolds s ws := by
  obtain ⟨n, hn⟩ := Option.isSome_iff_exists.1 hn
  have hle : n ≤ s.ops.win.length := by simpa [Operands.written, hn] using hw
  exact ⟨s.ops.win.take n, by simp [WinHolds, hn, hle]⟩

/-- Otherwise the first of WINLEN and WIN without a value is named (10_state.md R47). -/
theorem readWords_unwritten (h : ¬ (Operands.written s.ops .winlen = true ∧ Operands.written s.ops .win = true))
    (body : List Token → Out) :
    ∃ r ∈ [OperandReg.winlen, .win], Operands.written s.ops r = false ∧
      readWords s.ops body = .fault (.unwrittenOperand r) := by
  cases hn : s.ops.winlen with
  | none => exact ⟨.winlen, by simp, by simp [Operands.written, hn], by simp [readWords, hn]⟩
  | some n =>
    have hle : ¬ n ≤ s.ops.win.length := by simpa [Operands.written, hn] using h
    exact ⟨.win, by simp, by simpa [Operands.written, hn] using hle, by simp [readWords, hn, hle]⟩

section Completion

variable (h : s.phase = .ready regs)
include h

theorem exec_rup32 {n : Nat} (hv : s.ops.vin = some n) :
    exec .rup32 s = .next (succeed { bwout := some (rup32 n) } s) := by
  simp [exec, execRup32, whenReady_ready h, hv]

theorem exec_enc {v : Nat} {bw : Int} (hv : s.ops.vin = some v) (hb : s.ops.bwin = some bw) :
    exec .enc s = .next (finish s (encResult Config.cfg regs.rom v bw)) := by
  simp [exec, execEnc, encCommand, whenReady_ready h, hv, hb]

theorem exec_enca {v : Nat} (hv : s.ops.vin = some v) :
    exec .enca s = .next (succeed { wout := some (encodeAuto Config.cfg regs.rom v) } s) := by
  simp [exec, execEnca, encaCommand, whenReady_ready h, hv]

theorem exec_dec {ws : List Token} (hw : WinHolds s ws) :
    exec .dec s = .next (finish s (decResult Config.cfg regs.rom ws)) := by
  simp [exec, execDec, decCommand, whenReady_ready h, readWords_holds hw]

theorem permute32_ready (f : ConfigRegs → BitVec 32 → BitVec 32) {x : BitVec 32} (hx : s.ops.x32in = some x) :
    permute32 f s = .next (succeed { x32out := some (f regs x) } s) := by
  simp [permute32, whenReady_ready h, hx]

theorem permute64_ready (f : ConfigRegs → BitVec 64 → BitVec 64) {x : BitVec 64} (hx : s.ops.x64in = some x) :
    permute64 f s = .next (succeed { x64out := some (f regs x) } s) := by
  simp [permute64, whenReady_ready h, hx]

theorem obfenc32_ready (c : Cfg) (f : ConfigRegs → BitVec 32 → BitVec 32) {x : BitVec 32}
    (hx : s.ops.x32in = some x) :
    obfenc32 c f s = .next (succeed { wout := some (encodeAuto c regs.rom (f regs x).toNat) } s) := by
  simp [obfenc32, patternWords, whenReady_ready h, hx]

theorem obfenc64_ready (c : Cfg) (f : ConfigRegs → BitVec 64 → BitVec 64) {x : BitVec 64}
    (hx : s.ops.x64in = some x) :
    obfenc64 c f s = .next (succeed { wout := some (encodeAuto c regs.rom (f regs x).toNat) } s) := by
  simp [obfenc64, patternWords, whenReady_ready h, hx]

theorem decdeobf32_ready (c : Cfg) (f : ConfigRegs → BitVec 32 → BitVec 32) {ws : List Token}
    (hw : WinHolds s ws) :
    decdeobf32 c f s = .next (finish s (decdeobfResult32 (f regs) (decodePattern 32 c regs.rom ws))) := by
  simp [decdeobf32, whenReady_ready h, readWords_holds hw]

theorem decdeobf64_ready (c : Cfg) (f : ConfigRegs → BitVec 64 → BitVec 64) {ws : List Token}
    (hw : WinHolds s ws) :
    decdeobf64 c f s = .next (finish s (decdeobfResult64 (f regs) (decodePattern 64 c regs.rom ws))) := by
  simp [decdeobf64, whenReady_ready h, readWords_holds hw]

end Completion

/-- Outside `READY` every command changes nothing (70_reset_and_hazards.md R221). -/
theorem exec_quiet (h : ∀ r, s.phase ≠ .ready r) (i : Instr) : exec i s = .next s := by
  cases i <;> exact whenReady_quiet h _

/-- How a command may end: with exactly its own results, or with one of its own error kinds (R31, R192). -/
def Leaves (i : Instr) : Except ErrKind Results → Prop
  | .ok r => WritesExactly i r
  | .error k => k ∈ mayRaise i

/-- A command that is known to succeed with its own results ends as its table rows ask. -/
theorem ends_with {i : Instr} {r : Results} (h : exec i s = .next (succeed r s)) (hr : WritesExactly i r) :
    ∃ x, exec i s = .next (finish s x) ∧ Leaves i x :=
  ⟨.ok r, h, hr⟩

theorem encResult_leaves (c : Cfg) (rom : Rom) (v : Nat) (bw : Int) : Leaves .enc (encResult c rom v bw) := by
  unfold encResult
  split
  · simp [Leaves, mayRaise]
  · exact ⟨_, rfl⟩

theorem decodeWords_error {c : Cfg} {rom : Rom} {ws : List Token} {k : ErrKind}
    (h : decodeWords c rom ws = .error k) : k = .invalidWord ∨ k = .invalidChecksum := by
  unfold decodeWords at h
  split at h
  · cases h; exact .inl rfl
  · split at h
    · cases h; exact .inl rfl
    · simp only at h
      split at h
      · cases h; exact .inr rfl
      · cases h

theorem decResult_leaves (c : Cfg) (rom : Rom) (ws : List Token) : Leaves .dec (decResult c rom ws) := by
  unfold decResult
  split
  · exact ⟨_, _, rfl⟩
  · rename_i h
    simpa [Leaves, mayRaise] using decodeWords_error h

theorem decodePattern_error {w : Nat} {c : Cfg} {rom : Rom} {ws : List Token} {k : ErrKind}
    (h : decodePattern w c rom ws = .error k) :
    k = .invalidWord ∨ k = .invalidChecksum ∨ k = .narrowOverflow := by
  unfold decodePattern at h
  split at h
  · split at h
    · cases h; simp
    · cases h
  · rename_i hd
    cases h
    rcases decodeWords_error hd with rfl | rfl <;> simp

/-- The end of a DECDEOBF command, in the form its table rows ask. -/
theorem decdeobfResult32_leaves {i : Instr} (f : BitVec 32 → BitVec 32) (c : Cfg) (rom : Rom) (ws : List Token)
    (hi : i = .decdeobfU32 ∨ i = .decdeobfS32) :
    Leaves i (decdeobfResult32 f (decodePattern 32 c rom ws)) := by
  cases h : decodePattern 32 c rom ws with
  | ok y => rcases hi with rfl | rfl <;> exact ⟨_, rfl⟩
  | error k => rcases hi with rfl | rfl <;> simpa [Leaves, decdeobfResult32, mayRaise] using decodePattern_error h

theorem decdeobfResult64_leaves {i : Instr} (f : BitVec 64 → BitVec 64) (c : Cfg) (rom : Rom) (ws : List Token)
    (hi : i = .decdeobfU64 ∨ i = .decdeobfS64) :
    Leaves i (decdeobfResult64 f (decodePattern 64 c rom ws)) := by
  cases h : decodePattern 64 c rom ws with
  | ok y => rcases hi with rfl | rfl <;> exact ⟨_, rfl⟩
  | error k => rcases hi with rfl | rfl <;> simpa [Leaves, decdeobfResult64, mayRaise] using decodePattern_error h

/-- In `READY` with its operands written a command ends, and as the spec's tables say. -/
theorem exec_written (h : s.phase = .ready regs) {i : Instr} (hw : OperandsWritten i s) :
    ∃ x, exec i s = .next (finish s x) ∧ Leaves i x := by
  cases i
  case enc =>
    obtain ⟨v, hv⟩ := Option.isSome_iff_exists.1 (hw .vin (by simp [Instr.reads]))
    obtain ⟨bw, hb⟩ := Option.isSome_iff_exists.1 (hw .bwin (by simp [Instr.reads]))
    exact ⟨_, exec_enc h hv hb, encResult_leaves ..⟩
  case enca =>
    obtain ⟨v, hv⟩ := Option.isSome_iff_exists.1 (hw .vin (by simp [Instr.reads]))
    exact ends_with (exec_enca h hv) ⟨_, rfl⟩
  case rup32 =>
    obtain ⟨v, hv⟩ := Option.isSome_iff_exists.1 (hw .vin (by simp [Instr.reads]))
    exact ends_with (exec_rup32 h hv) ⟨_, rfl⟩
  case dec =>
    obtain ⟨ws, hws⟩ := winHolds_of_written (hw .winlen (by simp [Instr.reads])) (hw .win (by simp [Instr.reads]))
    exact ⟨_, exec_dec h hws, decResult_leaves ..⟩
  case decdeobfU32 | decdeobfS32 =>
    obtain ⟨ws, hws⟩ := winHolds_of_written (hw .winlen (by simp [Instr.reads])) (hw .win (by simp [Instr.reads]))
    exact ⟨_, decdeobf32_ready h _ _ hws, decdeobfResult32_leaves _ _ _ _ (by simp)⟩
  case decdeobfU64 | decdeobfS64 =>
    obtain ⟨ws, hws⟩ := winHolds_of_written (hw .winlen (by simp [Instr.reads])) (hw .win (by simp [Instr.reads]))
    exact ⟨_, decdeobf64_ready h _ _ hws, decdeobfResult64_leaves _ _ _ _ (by simp)⟩
  case obfencU32 | obfencS32 =>
    obtain ⟨x, hx⟩ := Option.isSome_iff_exists.1 (hw .x32in (by simp [Instr.reads]))
    exact ends_with (obfenc32_ready h _ _ hx) ⟨_, rfl⟩
  case obfencU64 | obfencS64 =>
    obtain ⟨x, hx⟩ := Option.isSome_iff_exists.1 (hw .x64in (by simp [Instr.reads]))
    exact ends_with (obfenc64_ready h _ _ hx) ⟨_, rfl⟩
  case obfU32 | obfS32 | deobfU32 | deobfS32 =>
    obtain ⟨x, hx⟩ := Option.isSome_iff_exists.1 (hw .x32in (by simp [Instr.reads]))
    exact ends_with (permute32_ready h _ hx) ⟨_, rfl⟩
  case obfU64 | obfS64 | deobfU64 | deobfS64 =>
    obtain ⟨x, hx⟩ := Option.isSome_iff_exists.1 (hw .x64in (by simp [Instr.reads]))
    exact ends_with (permute64_ready h _ hx) ⟨_, rfl⟩

/-- In `READY` a command faults exactly for an operand it reads that the host has not written (10_state.md
R47). -/
theorem exec_unwritten (h : s.phase = .ready regs) {i : Instr} (hw : ¬ OperandsWritten i s) :
    ∃ r ∈ Instr.reads i, Operands.written s.ops r = false ∧ exec i s = .fault (.unwrittenOperand r) := by
  cases i
  case enc =>
    cases hv : s.ops.vin with
    | none =>
      exact ⟨.vin, by simp [Instr.reads], by simp [Operands.written, hv],
        by simp [exec, execEnc, encCommand, whenReady_ready h, hv]⟩
    | some v =>
      have hb : s.ops.bwin = none := by
        simpa [OperandsWritten, Instr.reads, Operands.written, hv] using hw
      exact ⟨.bwin, by simp [Instr.reads], by simp [Operands.written, hb],
        by simp [exec, execEnc, encCommand, whenReady_ready h, hv, hb]⟩
  case enca | rup32 =>
    have hv : s.ops.vin = none := by simpa [OperandsWritten, Instr.reads, Operands.written] using hw
    exact ⟨.vin, by simp [Instr.reads], by simp [Operands.written, hv],
      by simp [exec, execEnca, execRup32, encaCommand, whenReady_ready h, hv]⟩
  case dec | decdeobfU32 | decdeobfS32 | decdeobfU64 | decdeobfS64 =>
    have hn : ¬ (Operands.written s.ops .winlen = true ∧ Operands.written s.ops .win = true) := by
      simpa [OperandsWritten, Instr.reads] using hw
    simpa [exec, execDec, decCommand, execDecdeobfU32, execDecdeobfS32, execDecdeobfU64, execDecdeobfS64,
      decdeobf32, decdeobf64, whenReady_ready h, Instr.reads] using readWords_unwritten hn _
  case obfU32 | obfS32 | deobfU32 | deobfS32 | obfencU32 | obfencS32 =>
    have hv : s.ops.x32in = none := by simpa [OperandsWritten, Instr.reads, Operands.written] using hw
    exact ⟨.x32in, by simp [Instr.reads], by simp [Operands.written, hv],
      by simp [exec, execObfU32, execObfS32, execDeobfU32, execDeobfS32, execObfencU32, execObfencS32, permute32,
        obfenc32, whenReady_ready h, hv]⟩
  case obfU64 | obfS64 | deobfU64 | deobfS64 | obfencU64 | obfencS64 =>
    have hv : s.ops.x64in = none := by simpa [OperandsWritten, Instr.reads, Operands.written] using hw
    exact ⟨.x64in, by simp [Instr.reads], by simp [Operands.written, hv],
      by simp [exec, execObfU64, execObfS64, execDeobfU64, execDeobfS64, execObfencU64, execObfencS64, permute64,
        obfenc64, whenReady_ready h, hv]⟩

/-- Everything a command that answers a next state can have done. -/
theorem exec_cases {i : Instr} {t : State} (h : exec i s = .next t) :
    ((∀ r, s.phase ≠ .ready r) ∧ t = s) ∨
      ∃ regs x, s.phase = .ready regs ∧ OperandsWritten i s ∧ t = finish s x ∧ Leaves i x := by
  by_cases hp : ∀ r, s.phase ≠ .ready r
  · rw [exec_quiet hp] at h
    cases h
    exact .inl ⟨hp, rfl⟩
  · obtain ⟨regs, hr⟩ : ∃ r, s.phase = .ready r := by
      by_contra hc
      exact hp fun r hr => hc ⟨r, hr⟩
    by_cases hw : OperandsWritten i s
    · obtain ⟨x, hx, hl⟩ := exec_written hr hw
      rw [hx] at h
      cases h
      exact .inr ⟨regs, x, hr, hw, rfl, hl⟩
    · obtain ⟨r, -, -, hf⟩ := exec_unwritten hr hw
      rw [hf] at h
      cases h

end Sys2Proof.Machine
end

