-- ==== Sys2Proof/Laws/PerInstr.lean ====
section
/-! SUPPORT. The per-instruction family `CommandByte`: what 30_encoding.md R81 to R83 say of the fields of each
command's byte. -/

namespace Sys2Proof.Laws.CommandByte

/-- The byte's `ZERO` field is 000, its class is not the reserved one, a codec byte's function is below 4, and
the command is well formed. -/
def Statement (i : Instr) : Prop :=
  zeroField (encode i) = 0 ∧ classField (encode i) ≠ 3 ∧
    (classField (encode i) = 0 → (funcField (encode i)).toNat < 4) ∧ i.wellFormed = true

theorem enc : Statement .enc := by unfold Statement; decide
theorem enca : Statement .enca := by unfold Statement; decide
theorem dec : Statement .dec := by unfold Statement; decide
theorem rup32 : Statement .rup32 := by unfold Statement; decide
theorem obfU32 : Statement .obfU32 := by unfold Statement; decide
theorem obfS32 : Statement .obfS32 := by unfold Statement; decide
theorem obfU64 : Statement .obfU64 := by unfold Statement; decide
theorem obfS64 : Statement .obfS64 := by unfold Statement; decide
theorem deobfU32 : Statement .deobfU32 := by unfold Statement; decide
theorem deobfS32 : Statement .deobfS32 := by unfold Statement; decide
theorem deobfU64 : Statement .deobfU64 := by unfold Statement; decide
theorem deobfS64 : Statement .deobfS64 := by unfold Statement; decide
theorem obfencU32 : Statement .obfencU32 := by unfold Statement; decide
theorem obfencS32 : Statement .obfencS32 := by unfold Statement; decide
theorem obfencU64 : Statement .obfencU64 := by unfold Statement; decide
theorem obfencS64 : Statement .obfencS64 := by unfold Statement; decide
theorem decdeobfU32 : Statement .decdeobfU32 := by unfold Statement; decide
theorem decdeobfS32 : Statement .decdeobfS32 := by unfold Statement; decide
theorem decdeobfU64 : Statement .decdeobfU64 := by unfold Statement; decide
theorem decdeobfS64 : Statement .decdeobfS64 := by unfold Statement; decide

end Sys2Proof.Laws.CommandByte
end

