-- ==== Sys2Proof/Laws/Step.lean ====
section
/-! SUPPORT. What a step can do, said once: initialisation, a line of the host, or nothing. -/

namespace Sys2Proof.Machine

open Sys2Proof.Safety

variable {s : State}

theorem passLine_eq (s : State) : s.passLine = hostAt s (s.host.line + 1) := rfl

/-- Where initialisation comes next, the step is initialisation (70_reset_and_hazards.md R217). -/
theorem stepOf_initialise (c : Cfg) (h : InitialisationIsNext s) : stepOf c s = .next (initialise c s) := by
  obtain ⟨hp, hw⟩ := h
  have hd : s.initDue = true := by
    simp only [State.initDue, hp, State.currentLine]
    rcases hw with hw | hw <;> simp [hw]
  simp [stepOf, hd]

/-- Where the host acts, the step runs its line on the state whose host has passed it. -/
theorem step_line {l : HostLine} (h : HostActs s l) : step s = runLine l (hostAt s (s.host.line + 1)) := by
  obtain ⟨hl, hw⟩ := h
  have hd : s.initDue = false := by
    unfold State.initDue State.currentLine
    rw [hl]
    rcases hw with hw | hw <;> split <;> simp_all
  simp [step, stepOf, hd, runHost, State.currentLine, hl, passLine_eq]

/-- A host with no line left does nothing (R234). -/
theorem step_quiet (hp : s.phase ≠ .reset) (hl : s.host.program[s.host.line]? = none) : step s = .next s := by
  have hd : s.initDue = false := by
    unfold State.initDue
    split <;> simp_all
  simp [step, stepOf, hd, runHost, State.currentLine, hl]

/-- Every state is in one of the three cases. -/
theorem step_kinds (s : State) :
    InitialisationIsNext s ∨ (∃ l, HostActs s l) ∨
      (s.phase ≠ .reset ∧ s.host.program[s.host.line]? = none) := by
  unfold InitialisationIsNext HostActs
  cases hl : s.host.program[s.host.line]? with
  | none =>
    by_cases hp : s.phase = .reset
    · exact .inl ⟨hp, .inr rfl⟩
    · exact .inr (.inr ⟨hp, rfl⟩)
  | some l =>
    by_cases hp : s.phase = .reset
    · by_cases hw : s.initWait = 0
      · exact .inl ⟨hp, .inl hw⟩
      · exact .inr (.inl ⟨l, rfl, .inr hw⟩)
    · exact .inr (.inl ⟨l, rfl, .inl hp⟩)

/-- A byte that is no command, in `READY` (30_encoding.md R86). -/
theorem illegalByte_ready {regs : ConfigRegs} (h : s.phase = .ready regs) :
    illegalByte s = .next (raise .illegalCommand s) :=
  whenReady_ready h _

theorem illegalByte_quiet (h : NotReady s) : illegalByte s = .next s :=
  whenReady_quiet h _

/-- A host read has no answer exactly where the register or entry holds no value (10_state.md R34). -/
theorem hostRead_eq_none_iff (s : State) (r : HostReg) : s.hostRead r = none ↔ NoValue s r := by
  have derived : ∀ f : ConfigRegs → HostValue, s.readDerived f = none ↔ NotReady s := by
    intro f
    unfold State.readDerived NotReady
    cases s.phase <;> simp
  cases r
  case win =>
    simp only [State.hostRead, NoValue]
    cases s.ops.winlen <;> simp
  case winAt j =>
    simp only [State.hostRead, NoValue, State.memRead, State.entries, Option.map_eq_none_iff]
    cases s.ops.winlen
    · simp
    · simp
      omega
  case woutAt j =>
    simp only [State.hostRead, NoValue, State.memRead, State.entries, Option.map_eq_none_iff]
    cases s.res.wout <;> simp
  case wromAt g =>
    simp [State.hostRead, NoValue, memRead_wrom_eq_none_iff]
  case pinv32 | pinv64 | pm32 | pm64 | xk | ak => exact derived _
  all_goals simp [State.hostRead, NoValue]

/-- In `withFetchWord` the host stands at a line that issues the row's byte, and no initialisation comes first. -/
theorem withFetchWord_acts (s : State) (nbits w : Nat) :
    HostActs (s.withFetchWord nbits w) (.issue (tableByte nbits w)) := by
  refine ⟨by simp [State.withFetchWord, placeCommand, HostSide.place], .inl ?_⟩
  simp only [State.withFetchWord, placeCommand]
  cases s.phase <;> simp [Phase.started]

/-- The very next step issues the row's byte. -/
theorem step_withFetchWord (s : State) (nbits w : Nat) :
    step (s.withFetchWord nbits w) = runIssue (tableByte nbits w) (s.withFetchWord nbits w).passLine :=
  step_line (withFetchWord_acts s nbits w)

/-- The derived registers of an odd `P` are sound (R39, R40). -/
theorem derivedRegs_sound {c : Cfg} (h : c.prime % 2 = 1) : RegsSound (derivedRegs c) := by
  have h32 := mul_inverse (w := 32) (by decide) h
  have h64 := mul_inverse (w := 64) (by decide) h
  have hm : (derivedRegs c).pm32 = (derivedRegs c).pm64.setWidth 32 := by
    apply BitVec.eq_of_toNat_eq
    simp [derivedRegs]
  refine ⟨h32, h64, hm, ?_⟩
  have hlow : (derivedRegs c).pm32 * (derivedRegs c).pinv64.setWidth 32 = 1 := by
    rw [hm, ← BitVec.setWidth_mul _ _ (by decide)]
    exact congrArg (BitVec.setWidth 32) h64
  calc (derivedRegs c).pinv32
      = (derivedRegs c).pinv32 * ((derivedRegs c).pm32 * (derivedRegs c).pinv64.setWidth 32) := by
        rw [hlow, mul_one]
    _ = ((derivedRegs c).pm32 * (derivedRegs c).pinv32) * (derivedRegs c).pinv64.setWidth 32 := by ring
    _ = (derivedRegs c).pinv64.setWidth 32 := by
        rw [show (derivedRegs c).pm32 * (derivedRegs c).pinv32 = 1 from h32, one_mul]

/-- The words of a frame are what the datapath's group split and forward lookup give. -/
theorem frameWords_eq (rom : Rom) (t k : Nat) : frameWords rom t k = wordsOf rom (groups t (3 * k)) := by
  simp [frameWords, wordsOf, groups]

end Sys2Proof.Machine
end

