-- ==== Sys2Proof/Tests/Slice0.lean ====
section
/-! SUPPORT. The model's own tests: vectors of 95_test_vectors.md on its toy configuration `CfgT`, decoded words
written out from 30_encoding.md, the checks on syntax, and a witness for the hypotheses of each statement. -/

namespace Sys2Proof.Tests

open Sys2Proof Sys2Proof.Machine Sys2Proof.Safety

/-! The toy configuration (95_test_vectors.md section 0) and small states over it -/

def byteSum (bs : List Byte) : Nat := bs.foldl (fun a b => a + b.toNat) 0

def romT : Rom := { words := Rom.placeholder }

def cfgWith (p : Nat) : Cfg where
  word := romT
  digestBytes := 1
  hash bs := #v[BitVec.ofNat 8 (byteSum bs)]
  ckx ent bs := BitVec.ofNat (ent / 32) (byteSum bs)
  prime := p
  u32 := ⟨0, 0⟩
  s32 := ⟨0, 0⟩
  u64 := ⟨0, 0⟩
  s64 := ⟨0, 0⟩

def cfgT : Cfg := cfgWith 3

def regsT : ConfigRegs := derivedRegs cfgT

/-- A state of phase READY with the given operands and host. -/
def readyWith (o : Operands) (h : HostSide := {}) : State where
  ops := o
  status := .ok
  res := {}
  phase := .ready regsT
  host := h
  initWait := 0
  resets := 0

/-- The operands after `WR WIN, ws`. -/
def win (ws : List Token) : Operands := { win := ws, winlen := some ws.length }

/-- Every operand holds a value. -/
def opsT : Operands where
  vin := some 1234567890
  bwin := some 32
  x32in := some 0x499602D2
  x64in := some 0x7FFFFFFFFFFFFFFF
  winlen := some 0

theorem winHolds_win (ws : List Token) : WinHolds (readyWith (win ws)) ws := ⟨rfl, List.take_length⟩

def readyT : State := readyWith opsT

/-- A host that stands at line `l`. -/
def atLine (l : HostLine) : HostSide := { program := [l] }

/-- The results of an outcome that is a next state. -/
def resOf : Out → Option Results
  | .next s => some s.res
  | .fault _ | .refused _ => none

/-- The status of an outcome that is a next state. -/
def statusOf : Out → Option Status
  | .next s => some s.status
  | .fault _ | .refused _ => none

/-- The indices of the words of an outcome's WOUT. -/
def indicesOfOut (o : Out) : Option (List Nat) :=
  match resOf o with
  | some r =>
    match r.wout with
    | some ws => (indicesOf romT ws).map (List.map Fin.val)
    | none => none
  | none => none

def isNext : Out → Bool
  | .next _ => true
  | .fault _ | .refused _ => false

/-- The words of an index list. -/
def words (gs : List Index) : List Token := wordsOf romT gs

/-! Syntax checks and their ill-formed terms (a command has no field, so no command is ill formed) -/

theorem test_program_wellformed : programWellFormed [.cmd .enc, .ifNotOk 3, .goto 0] = true := by decide
theorem test_goto_past_the_end_refused : programWellFormed [.goto 2] = false := by decide
theorem test_branch_past_the_end_refused : programWellFormed [.issue 0xFF, .ifNotOk 3] = false := by decide
theorem test_short_wordlist_refused : wordlistSized [] = false := by decide
theorem test_repeated_word_refused : wordlistDistinct [[], [1], []] = false := by decide

/-! Decoding: words written out bit by bit from 30_encoding.md R81 to R85, R86 -/

theorem test_decode_codec :
    decode 0b00000000 = .ok .enc ∧ decode 0b00000001 = .ok .enca ∧ decode 0b00000010 = .ok .dec ∧
      decode 0b00000011 = .ok .rup32 := by decide
theorem test_decode_permutation :
    decode 0b01000000 = .ok .obfU32 ∧ decode 0b01000001 = .ok .obfS32 ∧ decode 0b01000010 = .ok .obfU64 ∧
      decode 0b01000011 = .ok .obfS64 ∧ decode 0b01000100 = .ok .deobfU32 ∧ decode 0b01000101 = .ok .deobfS32 ∧
      decode 0b01000110 = .ok .deobfU64 ∧ decode 0b01000111 = .ok .deobfS64 := by decide
theorem test_decode_composed :
    decode 0b10000000 = .ok .obfencU32 ∧ decode 0b10000001 = .ok .obfencS32 ∧ decode 0b10000010 = .ok .obfencU64 ∧
      decode 0b10000011 = .ok .obfencS64 ∧ decode 0b10000100 = .ok .decdeobfU32 ∧
      decode 0b10000101 = .ok .decdeobfS32 ∧ decode 0b10000110 = .ok .decdeobfU64 ∧
      decode 0b10000111 = .ok .decdeobfS64 := by decide
theorem test_decode_illegal :
    decode 0x04 = .error .reservedFunc ∧ decode 0x07 = .error .reservedFunc ∧ decode 0x08 = .error .zeroField ∧
      decode 0x48 = .error .zeroField ∧ decode 0xB8 = .error .zeroField ∧ decode 0xC0 = .error .reservedClass ∧
      decode 0xFF = .error .zeroField := by decide
theorem test_table_word : decodeTableWord 8 0x87 = some .decdeobfS64 ∧ decodeTableWord 8 0x04 = none := by decide

/-! The codec under `CfgT` (95_test_vectors.md sections 2 to 4) -/

theorem test_rup32 : [2, 95, 96, 97, 8193, 2 ^ 40 + 1].map rup32 = [32, 96, 96, 128, 8224, 2 ^ 40 + 32] := by decide
theorem test_bitlen : [0, 1, 2 ^ 31, 2 ^ 32, 2 ^ 64 - 1, 2 ^ 256].map bitlen = [0, 1, 32, 33, 64, 257] := by decide
theorem test_checksum : ck cfgT 32 [0x49, 0x96, 0x02, 0xD2] = 1 ∧ ck cfgT 128 (List.replicate 16 0xFF) = 15 ∧
    ck cfgT 288 (0x80 :: List.replicate 35 0) = 128 := by decide
theorem test_rup32_runs : (resOf (exec .rup32 (readyWith { vin := some 33 }))).bind (·.bwout) = some 64 := by decide
theorem test_enc : indicesOfOut (encCommand cfgT (readyWith { vin := some (2 ^ 32 + 5), bwin := some 32 })) =
    some [0, 0, 10] := by decide +kernel
theorem test_enc_wide : indicesOfOut (encCommand cfgT (readyWith { vin := some 1234567890, bwin := some 64 })) =
    some [0, 0, 0, 1177, 769, 842] := by decide +kernel
theorem test_enca : indicesOfOut (encaCommand cfgT (readyWith { vin := some 0x023456789ABCDEF0 })) =
    some [17, 1301, 1265, 427, 1647, 960] := by decide +kernel
theorem test_enca_ckx : (indicesOfOut (encaCommand cfgT (readyWith { vin := some (2 ^ 287) }))).map
    (fun gs => (gs.length, gs.head?, gs.getLast?)) = some (27, some 1024, some 128) := by decide +kernel
theorem test_dec : (resOf (decCommand cfgT (readyWith (win (words [588, 1409, 1445]))))).map
    (fun r => (r.vout, r.bwout)) = some (some 1234568914, some 32) := by decide +kernel
/-- `WR WIN` of four words, then `WR WINLEN, 3`: DEC reads the first three (R42, R114). -/
theorem test_winlen : (resOf (decCommand cfgT (((readyWith {}).writeOperand (.win (words [588, 1409, 1445, 7]))).writeOperand
    (.winlen 3)))).bind (·.vout) = some 1234568914 := by decide +kernel
/-- With `WINLEN` past the words written the entries beyond have no value (R47); with 0 the count is bad (R116). -/
theorem test_winlen_ends : exec .dec ((readyWith (win [[]])).writeOperand (.winlen 2)) = .fault (.unwrittenOperand .win) ∧
    statusOf (exec .dec ((readyWith {}).writeOperand (.winlen 0))) = some (.error .invalidWord) := ⟨rfl, by decide⟩
/-- A shorter `WR WIN` leaves the entries beyond, and `WR WINLEN` shows them again (R25). -/
theorem test_win_keeps : (resOf (decCommand cfgT ((((readyWith {}).writeOperand (.win (words [7, 1409, 1445]))).writeOperand
    (.win (words [588]))).writeOperand (.winlen 3)))).bind (·.vout) = some 1234568914 := by decide +kernel
theorem test_dec_order : statusOf (decCommand cfgT (readyWith (win (words [588] ++ [[]] ++ words [1444])))) =
    some (.error .invalidWord) ∧
    statusOf (decCommand cfgT (readyWith (win (words [588, 1408, 1444])))) =
      some (.error .invalidChecksum) := by decide +kernel

/-! The permutation engines and the composed commands (sections 5 and 6) -/

theorem test_inverses : (derivedRegs (cfgWith 1000000007)).pinv64 = 0xBB5708AD7B4883B7 ∧
    (derivedRegs (cfgWith 2654435761)).pinv32 = 0x0E8B2F51 ∧ (derivedRegs (cfgWith 9)).pinv32 = 0x38E38E39 := by
  decide
theorem test_obf_u32 : (resOf (exec .obfU32 readyT)).bind (·.x32out) = some 0xDCC20876 := by decide
theorem test_obf_s32 : (resOf (exec .obfS32 (readyWith { x32in := some (toU 32 (-1)) }))).bind
    (fun r => r.x32out.map toS) = some (-3) := by decide
theorem test_obf_u64 : (resOf (exec .obfU64 readyT)).bind (·.x64out) = some 0x7FFFFFFFFFFFFFFD := by decide
theorem test_obf_s64 : (resOf (exec .obfS64 (readyWith { x64in := some 0x8000000000000001 }))).bind (·.x64out) =
    some 0x8000000000000003 := by decide
theorem test_deobf_u32 : (resOf (exec .deobfU32 (readyWith { x32in := some 5 }))).bind (·.x32out) =
    some 0x55555557 := by decide
theorem test_deobf_s32 : (resOf (exec .deobfS32 (readyWith { x32in := some 0xFFFFFFFD }))).bind (·.x32out) =
    some 0xFFFFFFFF := by decide
theorem test_deobf_u64 : (resOf (exec .deobfU64 (readyWith { x64in := some 5 }))).bind (·.x64out) =
    some 0x5555555555555557 := by decide
theorem test_deobf_s64 : (resOf (exec .deobfS64 (readyWith { x64in := some 0xFFFFFFFFFFFFFFFD }))).bind (·.x64out) =
    some 0xFFFFFFFFFFFFFFFF := by decide
theorem test_obf_stages : obf (3 : BitVec 32) ⟨0xDEADBEEF, 0xF0000000⟩ 0xFFFFFFFF = 0x11524112 ∧
    deobf (0xAAAAAAAB : BitVec 32) ⟨0xDEADBEEF, 0xF0000000⟩ 0x11524112 = 0xFFFFFFFF := by decide
theorem test_obfenc_u32 : indicesOfOut (obfenc32 cfgT obfOfU32 readyT) = some [1766, 130, 236] := by decide +kernel
theorem test_obfenc_s32 : indicesOfOut (obfenc32 cfgT obfOfS32 (readyWith { x32in := some 0xFFFFFFFF })) =
    some [2047, 2047, 2043] := by decide +kernel
theorem test_obfenc_u64 : indicesOfOut (obfenc64 cfgT obfOfU64 (readyWith { x64in := some 5 })) =
    some [0, 0, 30] := by decide +kernel
theorem test_obfenc_s64 : indicesOfOut (obfenc64 cfgT obfOfS64 (readyWith { x64in := some 0x8000000000000001 })) =
    some [1024, 0, 0, 0, 0, 14] := by decide +kernel
theorem test_decdeobf_u32 : (resOf (decdeobf32 cfgT deobfOfU32 (readyWith (win (words [0, 0, 0, 0, 0, 20]))))).bind
    (·.x32out) = some 0x55555557 := by decide +kernel
theorem test_decdeobf_u32_narrow : statusOf (decdeobf32 cfgT deobfOfU32 (readyWith (win (words [0, 0, 2, 0, 0, 0])))) =
    some (.error .narrowOverflow) := by decide +kernel
theorem test_decdeobf_s32 : (resOf (decdeobf32 cfgT deobfOfS32 (readyWith (win (words [2047, 2047, 2043]))))).bind
    (·.x32out) = some 0xFFFFFFFF := by decide +kernel
theorem test_decdeobf_u64 : (resOf (decdeobf64 cfgT deobfOfU64 (readyWith (win (words [0, 0, 2, 0, 0, 0]))))).bind
    (·.x64out) = some 0xAAAAAAAB00000000 := by decide +kernel
theorem test_decdeobf_s64 : (resOf (decdeobf64 cfgT deobfOfS64 (readyWith (win (words [1024, 0, 0, 0, 0, 14]))))).bind
    (·.x64out) = some 0x8000000000000001 := by decide +kernel

/-! Steps: a table row's command is the next one run, illegal bytes, the fatal phase (section 6, program 5) -/

theorem test_every_row_runs_after_reset : ∀ i : Instr, isNext (step (State.reset.withFetchWord 8 (encode i).toNat)) = true := by
  intro i
  cases i <;> decide +kernel
theorem test_illegal_byte : statusOf (step (readyWith opsT (atLine (.issue 0xFF)))) = some (.error .illegalCommand) := by
  decide
theorem test_fatal_ignores : statusOf (step { readyWith opsT (atLine (.cmd .obfU32)) with phase := .fatal }) = some .ok ∧
    (resOf (step { readyWith opsT (atLine (.cmd .obfU32)) with phase := .fatal })).bind (·.x32out) = none := by decide
theorem test_even_prime_is_fatal : [2, 0, 10].map (fun p => phaseCode (initialPhase (cfgWith p))) = [2, 2, 2] ∧
    phaseCode (initialPhase (cfgWith 9)) = 1 := by decide +kernel
theorem test_unwritten_operand : exec .enc (readyWith { vin := some 5 }) = .fault (.unwrittenOperand .bwin) := rfl
theorem test_read_of_none : step (readyWith opsT (atLine (.rd .vout))) = .fault (.readNoValue .vout) := rfl

/-! A witness for the hypotheses of each statement that has some -/

def resetT : State := { readyT with phase := .reset }
def fatalT (h : HostSide := {}) : State := { readyWith opsT h with phase := .fatal }

theorem witness_StepKeepsTheInvariant : ∃ s t, Safety.Inv s ∧ step s = .next t ∧ ∃ r, s.phase = .ready r := by
  refine ⟨readyWith opsT (atLine (.cmd .rup32)), _, ⟨?_, fun _ => rfl, .inl rfl, fun h => absurd rfl (h _), ?_, fun _ => rfl⟩, rfl, _, rfl⟩
  · intro r hr
    rw [← Phase.ready.inj hr]
    exact derivedRegs_sound (c := cfgT) rfl
  · exact Memory.wf_of_wout_none rfl

theorem witness_Initialisation : InitialisationIsNext resetT ∧ cfgT.prime % 2 = 1 ∧ (cfgWith 2).prime % 2 = 0 ∧
    InitialisationIsNext { resetT with initWait := 1 } :=
  ⟨⟨rfl, .inl rfl⟩, rfl, rfl, ⟨rfl, .inr rfl⟩⟩

/-- Each clause: an idle host in READY, a reset in FATAL, initialisation due and not yet due in RESET. -/
theorem witness_PhaseIsLeftOnlyByReset : (∃ t, step readyT = .next t) ∧ readyT.phase ≠ .reset ∧
    readyT.host.program[readyT.host.line]? ≠ some .reset ∧
    (∃ t, step (fatalT (atLine .reset)) = .next t) ∧ (fatalT (atLine .reset)).phase ≠ .reset ∧
    (∃ t, step resetT = .next t) ∧ InitialisationIsNext resetT ∧
    (∃ t, step { resetT with host := atLine (.goto 0), initWait := 1 } = .next t) ∧
    ¬ InitialisationIsNext { resetT with host := atLine (.goto 0), initWait := 1 } :=
  ⟨⟨_, rfl⟩, by simp [readyT, readyWith], by simp [readyT, readyWith], ⟨_, rfl⟩, by simp [fatalT],
    ⟨_, rfl⟩, ⟨rfl, .inl rfl⟩, ⟨_, rfl⟩, by simp [InitialisationIsNext, atLine]⟩

/-- The host acts at any line, in READY, in FATAL, and in RESET while initialisation waits. -/
theorem witness_HostActs (l : HostLine) : HostActs (readyWith opsT (atLine l)) l ∧ HostActs (fatalT (atLine l)) l ∧
    HostActs { resetT with host := atLine l, initWait := 1 } l :=
  ⟨⟨rfl, .inl (by simp [readyWith])⟩, ⟨rfl, .inl (by simp [fatalT])⟩, ⟨rfl, .inr (by simp)⟩⟩

theorem witness_EncodedCommandDecodesToItself : Instr.wellFormed .decdeobfS64 = true := rfl

theorem witness_StepRunsTheDecodedCommand : HostActs (readyWith opsT (atLine (.issue 0x87))) (.issue 0x87) ∧
    decode 0x87 = .ok .decdeobfS64 ∧ HostActs (readyWith opsT (atLine (.cmd .enc))) (.cmd .enc) :=
  ⟨(witness_HostActs _).1, rfl, (witness_HostActs _).1⟩

theorem witness_IllegalByteInReady : HostActs (readyWith opsT (atLine (.issue 0x04))) (.issue 0x04) ∧
    decode 0x04 = .error .reservedFunc ∧ decode 0xC0 = .error .reservedClass ∧ decode 0x08 = .error .zeroField :=
  ⟨(witness_HostActs _).1, rfl, rfl, rfl⟩

theorem witness_CommandsOutsideReadyAreIgnored (l : HostLine) : NotReady resetT ∧ NotReady (fatalT (atLine l)) ∧
    HostActs (fatalT (atLine l)) l ∧ Safety.Inv (fatalT (atLine l)) :=
  ⟨fun _ h => (by cases h), fun _ h => (by cases h), (witness_HostActs l).2.1, fun _ h => (by cases h), fun _ => rfl,
    .inl rfl, fun _ => ⟨rfl, rfl⟩, Memory.wf_of_wout_none rfl, fun _ => rfl⟩

/-- Frames, READY: a storing command and one that stores nothing answer a next state. -/
theorem witness_Frames : (∃ t, exec .enca readyT = .next t) ∧ (∃ t, exec .dec readyT = .next t) ∧
    (∃ t, exec .enc resetT = .next t) ∧ (∃ t, exec .obfencS64 readyT = .next t) ∧ ¬ NotReady readyT ∧
    storesWords .dec = false :=
  ⟨⟨_, rfl⟩, ⟨_, rfl⟩, ⟨_, rfl⟩, ⟨_, rfl⟩, fun h => h _ rfl, rfl⟩

/-- A command that fails and one that succeeds. -/
theorem witness_Ends : (∃ t, exec .dec readyT = .next t ∧ t.status = .error .invalidWord) ∧
    ∃ t, exec .obfU64 readyT = .next t ∧ t.status = .ok :=
  ⟨⟨_, rfl, by decide⟩, ⟨_, rfl, by decide⟩⟩

theorem witness_CommandsEnd (i : Instr) : OperandsWritten i readyT := by
  cases i <;> (unfold OperandsWritten; decide)

theorem witness_UnwrittenOperandIsAFault (i : Instr) : ¬ OperandsWritten i (readyWith {}) := by
  cases i <;> (unfold OperandsWritten; decide)

theorem witness_ResultsDependOnTheOperandsRead : ∃ t, exec .enca (readyWith { vin := some 5 }) = .next t ∧
    ∀ r ∈ Instr.reads .enca, sameOperand ({ vin := some 5 } : Operands) { vin := some 5, bwin := some 7 } r :=
  ⟨_, rfl, by simp [Instr.reads, sameOperand]⟩

/-- Registers with and without a value, at the ends of each range. -/
theorem witness_HostRead : NoValue readyT .vout ∧ NoValue readyT (.winAt 0) ∧ ¬ NoValue (fatalT) (.wromAt 2047) ∧
    NoValue resetT .pinv32 ∧ NoValue resetT (.wromAt 0) ∧ ¬ NoValue readyT (.wromAt 2047) ∧ ¬ NoValue readyT .vin ∧
    ¬ NoValue (readyWith (win [[]])) (.winAt 0) ∧ NoValue (readyWith (win [[]])) (.winAt 1) := by
  simp [NoValue, NotReady, readyT, resetT, fatalT, readyWith, opsT, win]

/-- A state in which every register holds a value, the XOR masks and addends in it being 0. -/
def fullT (r : HostReg) : State :=
  { readyWith { opsT with win := [[], [7]], winlen := some 2 } (atLine (.rd r)) with
    res := { vout := some 0, bwout := some 32, x32out := some 0, x64out := some 0, wout := some [[], [1], [2]] } }

theorem witness_HostReadGivesTheValue (r : HostReg) : HostActs (fullT r) (.rd r) :=
  ⟨rfl, .inl (by simp [fullT, readyWith])⟩

theorem witness_HoldsValue (q : HostReg) : HoldsValue (fullT q) (.int 32) .bwin ∧
    HoldsValue (fullT q) (.nat 2) .winlen ∧ HoldsValue (fullT q) (.tokens [[], [7]]) .win ∧
    HoldsValue (fullT q) (.token [7]) (.winAt 1) ∧ HoldsValue (fullT q) (.token [2]) (.woutAt 2) ∧
    HoldsValue (fullT q) (.nat 3) .woutlen ∧ HoldsValue (fullT q) (.bits64 0) (.ak .s64) ∧
    HoldsValue (fullT q) (.token (romWord regsT.rom 2047)) (.wromAt 2047) ∧
    HoldsValue fatalT (.token ((Config.fatalWrom 0).get 2047)) (.wromAt 2047) :=
  ⟨⟨_, rfl, rfl⟩, ⟨_, rfl, rfl⟩, ⟨_, ⟨rfl, rfl⟩, rfl⟩, ⟨_, _, rfl, by decide, rfl, rfl⟩, ⟨_, _, rfl, rfl, rfl⟩,
    ⟨_, rfl, rfl⟩, ⟨_, rfl, rfl⟩, .inl ⟨_, rfl, rfl⟩, .inr ⟨rfl, rfl⟩⟩

theorem witness_HostBranches : HostActs (readyWith opsT (atLine (.ifNotOk 1))) (.ifNotOk 1) ∧
    (readyWith opsT).status = .ok ∧
    HostActs { readyWith opsT (atLine (.ifNotOk 1)) with status := .error .invalidWord } (.ifNotOk 1) :=
  ⟨(witness_HostActs _).1, rfl, ⟨rfl, .inl (by simp [readyWith])⟩⟩

theorem witness_StepStopsOnlyForTheHost :
    step (readyWith {} (atLine (.cmd .dec))) = .fault (.unwrittenOperand .winlen) ∧
    step (readyWith opsT (atLine (.rd .vout))) = .fault (.readNoValue .vout) := ⟨rfl, rfl⟩

theorem witness_BlockIsQuiescent : readyT.phase ≠ .reset ∧ readyT.host.program[readyT.host.line]? = none :=
  ⟨by simp [readyT, readyWith], rfl⟩

theorem witness_Rup32 : readyT.phase = .ready regsT ∧ (readyWith { vin := some 0 }).ops.vin = some 0 ∧
    (readyWith { vin := some 256 }).ops.vin = some 256 := ⟨rfl, rfl, rfl⟩

theorem witness_EncOfABadWidthFails : ∀ bw ∈ [(0 : Int), -32, 33], (bw ≤ 0 ∨ bw % 32 ≠ 0) ∧
    (readyWith { vin := some 5, bwin := some bw }).ops.bwin = some bw := by
  simp [readyWith]

theorem witness_InvalidBitWidthIsEncs :
    ∃ t, exec .enc (readyWith { vin := some 5, bwin := some 0 }) = .next t ∧ t.status = .error .invalidBitWidth :=
  ⟨_, rfl, rfl⟩

theorem witness_EncWritesTheFrame : (readyWith { vin := some 0, bwin := some 32 }).ops.bwin = some ((32 * 1 : Nat) : Int) ∧
    (readyWith { vin := some (2 ^ 64), bwin := some 64 }).ops.bwin = some ((32 * 2 : Nat) : Int) := ⟨rfl, rfl⟩

theorem witness_EncTruncates : ValidWidth 32 ∧ (readyWith { vin := some (2 ^ 32 + 5), bwin := some 32 }).ops.vin =
    some (2 ^ 32 + 5) ∧ (readyWith { vin := some 5, bwin := some 32 }).ops.vin = some ((2 ^ 32 + 5) % 2 ^ 32) :=
  ⟨⟨by decide, rfl⟩, rfl, rfl⟩

theorem regsT_words : regsT.rom.words = Rom.placeholder := by
  simp only [regsT, derivedRegs, cfgT, cfgWith, romT]

theorem regsT_rom : regsT.rom = romT := by
  simp only [regsT, derivedRegs, cfgT, cfgWith]

theorem witness_UnknownWordIsInvalid : ∃ t ∈ ([[]] : List Token), ∀ g, romWord regsT.rom g ≠ t := by
  refine ⟨[], by simp, fun g h => ?_⟩
  have hmem := romWord_mem regsT.rom g
  rw [h, regsT_words] at hmem
  simp [Rom.placeholder] at hmem

theorem witness_BadCountIsInvalid :
    (∀ ws ∈ [[], words [2047], words [0, 0, 0, 0]], ws.length = 0 ∨ ws.length % 3 ≠ 0) ∧
    0 < (words [0, 0, 2047]).length ∧ (words [0, 0, 2047]).length % 3 = 0 ∧
    ∀ t ∈ words [0, 0, 2047], ∃ g, romWord regsT.rom g = t := by
  refine ⟨by simp [words, wordsOf], by simp [words, wordsOf], by simp [words, wordsOf], fun t h => ?_⟩
  obtain ⟨g, -, rfl⟩ := List.mem_map.1 h
  exact ⟨g, by rw [regsT_rom]⟩

/-- For each number of words a right checksum and a wrong one, at the greatest entropy of its width. -/
theorem witness_frames (k : Nat) (hk : 0 < k) (e : Nat) :
    ck Config.cfg (32 * k) (bytesBE e (4 * k)) < 2 ^ k ∧ ∃ x < 2 ^ k, ck Config.cfg (32 * k) (bytesBE e (4 * k)) ≠ x := by
  have h := ck_lt Config.cfg (32 * k) (bytesBE e (4 * k))
  rw [Nat.mul_div_cancel_left _ (by decide)] at h
  have h2 : 2 ^ 1 ≤ 2 ^ k := Nat.pow_le_pow_right (by decide) hk
  refine ⟨h, if ck Config.cfg (32 * k) (bytesBE e (4 * k)) = 0 then 1 else 0, ?_⟩
  split <;> omega

/-- Entropies at the ends of a width and of the two engines' ranges (DEC, DECDEOBF). -/
theorem witness_DecVerifiesTheFrame : 2 ^ 32 - 1 < 2 ^ (32 * 1) ∧ 2 ^ 32 < 2 ^ (32 * 2) ∧ 2 ^ 64 - 1 < 2 ^ (32 * 2) ∧
    2 ^ 64 < 2 ^ (32 * 3) ∧ ∀ k e x, ∃ s : State, s.phase = .ready regsT ∧
      WinHolds s (frameWords regsT.rom (e * 2 ^ k + x) k) :=
  ⟨by decide, by decide, by decide, by decide, fun k e x =>
    ⟨readyWith (win (frameWords regsT.rom (e * 2 ^ k + x) k)), rfl, winHolds_win _⟩⟩

theorem witness_InvalidChecksumHasOneCause :
    ∃ s t, s.phase = .ready regsT ∧ exec .dec s = .next t ∧ t.status = .error .invalidChecksum := by
  obtain ⟨x, hx, hne⟩ := (witness_frames 1 (by decide) 5).2
  refine ⟨readyWith (win (frameWords regsT.rom (5 * 2 ^ 1 + x) 1)), _, rfl, exec_dec rfl (winHolds_win _), ?_⟩
  rw [decResult, frameWords_eq, decodeWords_frame _ _ (by decide) (by decide) hx, if_neg hne]
  rfl

theorem witness_GroupsAndJoinAreInverse : 2 < 3 ∧ 2 ^ 33 - 1 < 2 ^ (11 * 3) := by decide

theorem witness_LookupsAreInverse : romIndex regsT.rom (romWord regsT.rom 2047) = some 2047 :=
  romIndex_romWord _ _

theorem witness_BytesAreBigEndian : 2 ^ 32 - 1 < 2 ^ (8 * 4) ∧ 3 < 4 := by decide

theorem witness_ChecksumIsTheLeadingBits : 256 / 32 ≤ cfgT.dlen ∧ 7 < 256 / 32 ∧ cfgT.dlen < 288 / 32 := by decide

theorem witness_KnownWordsAreAFrame : (words [588, 1408, 1445]).length = 3 * 1 ∧
    ∀ t ∈ words [588, 1408, 1445], ∃ g, romWord romT g = t := by
  refine ⟨rfl, fun t h => ?_⟩
  obtain ⟨g, -, rfl⟩ := List.mem_map.1 h
  exact ⟨g, rfl⟩

theorem witness_DecThenEncGivesTheWords :
    ∃ s ws t, s.phase = .ready regsT ∧ WinHolds s ws ∧ exec .dec s = .next t ∧ t.status = .ok := by
  refine ⟨readyWith (win (encodeWords Config.cfg regsT.rom 5 (32 * 1))), _, _, rfl, winHolds_win _,
    exec_dec rfl (winHolds_win _), ?_⟩
  rw [decResult, decodeWords_encodeWords _ _ _ (by decide)]
  rfl

theorem witness_RegsSound : RegsSound regsT ∧ PlainEngine regsT.u32 ∧ PlainEngine regsT.s32 ∧
    PlainEngine regsT.u64 ∧ PlainEngine regsT.s64 :=
  ⟨derivedRegs_sound (by decide), ⟨rfl, rfl⟩, ⟨rfl, rfl⟩, ⟨rfl, rfl⟩, ⟨rfl, rfl⟩⟩

/-- The multiplier 2654435761 of section 5, whose predecessor is divisible by 16 and not by 32. -/
theorem witness_FixedPointsOfAnEngine : (2654435761 : BitVec 32).toNat % 2 = 1 ∧
    2 ^ 4 ∣ (2654435761 : BitVec 32).toNat - 1 ∧ ¬ 2 ^ (4 + 1) ∣ (2654435761 : BitVec 32).toNat - 1 := by decide

theorem witness_ConstantStride : (⟨0, 7⟩ : EngineConst 32).xk = 0 := rfl

theorem witness_SignedEngines : (-2 ^ 31 : Int) ≤ -2 ^ 31 ∧ (-2 ^ 31 : Int) < 2 ^ 31 ∧ (-2 ^ 63 : Int) ≤ 2 ^ 63 - 1 ∧
    (2 ^ 63 - 1 : Int) < 2 ^ 63 := by decide

theorem witness_ObfencIsObfThenEnca : ∃ y, exec .obfU32 readyT = .next (done readyT { x32out := some y }) ∧
    (readyWith { vin := some y.toNat }).ops.vin = some y.toNat :=
  ⟨obfOfU32 regsT 0x499602D2, permute32_ready (s := readyT) rfl obfOfU32 rfl, rfl⟩

theorem witness_ObfencIsObfThenEnca64 : ∃ y, exec .obfU64 readyT = .next (done readyT { x64out := some y }) ∧
    (readyWith { vin := some y.toNat }).ops.vin = some y.toNat :=
  ⟨obfOfU64 regsT 0x7FFFFFFFFFFFFFFF, permute64_ready (s := readyT) rfl obfOfU64 rfl, rfl⟩

theorem witness_DecdeobfIsDecThenDeobf : ∃ s e k, s.phase = .ready regsT ∧
    exec .dec s = .next (done s { vout := some e, bwout := some k }) ∧ e = (5 : BitVec 32).toNat ∧
    e = (5 : BitVec 64).toNat := by
  refine ⟨readyWith (win (encodeWords Config.cfg regsT.rom 5 (32 * 1))), 5, 32, rfl, ?_, rfl, rfl⟩
  rw [exec_dec rfl (winHolds_win _), decResult, decodeWords_encodeWords _ _ _ (by decide)]
  rfl

theorem witness_ReadyOperands : readyT.phase = .ready regsT ∧ readyT.ops.vin = some 1234567890 ∧
    readyT.ops.x32in = some 0x499602D2 ∧ readyT.ops.x64in = some 0x7FFFFFFFFFFFFFFF := ⟨rfl, rfl, rfl, rfl⟩

end Sys2Proof.Tests
end

section
/-! PROOFS. The byte conversions of R11: each byte of `bytesBE`, and `bytesBE` after `intBE`. -/

namespace Sys2Proof.Machine

/-- Byte `j` of `bytesBE(v, n)` holds the bits `8(n-j)-1` to `8(n-j-1)` of `v` (R11). -/
theorem bytesBE_getElem? (v : Nat) {n j : Nat} (hj : j < n) :
    (bytesBE v n)[j]? = some (BitVec.ofNat 8 (v / 2 ^ (8 * (n - j - 1)))) := by
  simp [bytesBE, hj, Nat.sub_right_comm n j 1]

/-- The first byte is the quotient of the number read, and the bytes after it are the remainder. -/
theorem intBE_cons_div_mod (b : Byte) (bs : List Byte) :
    intBE (b :: bs) / 256 ^ bs.length = b.toNat ∧ intBE (b :: bs) % 256 ^ bs.length = intBE bs := by
  rw [Nat.div_mod_unique (by positivity), intBE_cons]
  exact ⟨by ring, intBE_lt bs⟩

/-- Byte strings of one length that read as the same number are equal. -/
theorem intBE_inj {as bs : List Byte} (hlen : as.length = bs.length) (h : intBE as = intBE bs) : as = bs := by
  induction as generalizing bs with
  | nil => exact (List.length_eq_zero_iff.1 hlen.symm).symm
  | cons a as ih =>
    obtain _ | ⟨b, bs⟩ := bs
    · simp at hlen
    · have htail : as.length = bs.length := Nat.succ.inj hlen
      obtain ⟨hdivA, hmodA⟩ := intBE_cons_div_mod a as
      obtain ⟨hdivB, hmodB⟩ := intBE_cons_div_mod b bs
      rw [h, htail] at hdivA hmodA
      rw [BitVec.eq_of_toNat_eq (hdivA.symm.trans hdivB), ih htail (hmodA.symm.trans hmodB)]

/-- `bytesBE` undoes `intBE` at the length of the byte string (R11). -/
theorem bytesBE_intBE (bs : List Byte) : bytesBE (intBE bs) bs.length = bs := by
  have hlt : intBE bs < 2 ^ (8 * bs.length) := by simpa [pow_mul] using intBE_lt bs
  exact intBE_inj (length_bytesBE ..) (by rw [intBE_bytesBE, Nat.mod_eq_of_lt hlt])

/-- Settles O43: every byte of `bytesBE` is a slice of the number, and the two conversions are inverse. -/
theorem bytesAreBigEndian : Obligations.BytesAreBigEndian := by
  refine ⟨length_bytesBE, fun v n j _ hj => ?_, fun v n hv => ?_, bytesBE_intBE⟩
  · rw [bytesBE_getElem? v hj, Option.map_some, BitVec.toNat_ofNat]
  · rw [intBE_bytesBE, Nat.mod_eq_of_lt hv]

end Sys2Proof.Machine
end

section
/-! PROOFS. What a command keeps, what it writes and what that depends on (R25, R31, R33), and the state at reset
and after initialisation (R46). -/

namespace Sys2Proof.Machine

open Sys2Proof.Safety

variable {s u : State} {regs : ConfigRegs} {i : Instr}

/-! What a command writes -/

/-- DEC is the only command that writes VOUT (10_state.md R31). -/
theorem vout_eq_none_of_writesExactly {r : Results} (h : WritesExactly i r) (hi : i ≠ .dec) : r.vout = none := by
  cases i
  case dec => exact absurd rfl hi
  all_goals
    obtain ⟨_, rfl⟩ := h
    rfl

/-- The results that a command other than DEC ends with have no VOUT, whether it succeeds or fails. -/
theorem finish_vout_eq_none {x : Except ErrKind Results} (h : Leaves i x) (hi : i ≠ .dec) :
    (finish s x).res.vout = none := by
  cases x with
  | ok r => exact vout_eq_none_of_writesExactly h hi
  | error k => rfl

/-- Settles O13: a command changes nothing or ends by `finish`, which changes STATUS and the results alone. -/
theorem commandsKeepAllButStatusAndResults : Obligations.CommandsKeepAllButStatusAndResults := by
  intro i s t h
  obtain ⟨hquiet, rfl⟩ | ⟨regs, x, -, -, rfl, hx⟩ := exec_cases h
  · exact ⟨rfl, rfl, rfl, rfl, rfl, fun hready => absurd hquiet hready⟩
  · exact ⟨finish_ops .., finish_phase .., finish_host .., finish_initWait .., finish_resets ..,
      fun _ hcomposed => finish_vout_eq_none hx (by rintro rfl; simp at hcomposed)⟩

/-- Settles O16: a command of READY ends well with exactly its own results, or with an error and none. -/
theorem successWritesExactlyItsResults : Obligations.SuccessWritesExactlyItsResults := by
  intro i s t regs hs h
  obtain ⟨hquiet, -⟩ | ⟨_, x, -, -, rfl, hx⟩ := exec_cases h
  · exact absurd hs (hquiet regs)
  · cases x with
    | ok r => exact ⟨fun _ => ⟨hx, rfl⟩, fun hne => absurd rfl hne⟩
    | error k => exact ⟨nofun, fun _ => rfl⟩

/-! What a command depends on -/

/-- An operand register that is written in one state and holds the same in another holds one value in both. -/
theorem exists_operand_of_same {α : Type} {a b : Option α} (hw : a.isSome = true) (hab : a = b) :
    ∃ v, a = some v ∧ b = some v := by
  obtain ⟨v, hv⟩ := Option.isSome_iff_exists.1 hw
  exact ⟨v, hv, hab ▸ hv⟩

/-- The words that a decoding command reads depend on WINLEN and the entries of WIN below it alone (40_codec.md R114). -/
theorem winHolds_of_same {ws : List Token} (h : WinHolds s ws) (hn : sameOperand s.ops u.ops .winlen)
    (hw : sameOperand s.ops u.ops .win) : WinHolds u ws := by
  obtain ⟨hlen, hwords⟩ := h
  have hlen' : u.ops.winlen = some ws.length := Eq.trans (Eq.symm hn) hlen
  refine ⟨hlen', ?_⟩
  simpa [sameOperand, hlen, hlen', hwords] using Eq.symm hw

/-- Where WIN is written in one state and holds the same in another, the two hold the same words. -/
theorem exists_words_of_same (hwn : Operands.written s.ops .winlen = true) (hww : Operands.written s.ops .win = true)
    (hn : sameOperand s.ops u.ops .winlen) (hw : sameOperand s.ops u.ops .win) :
    ∃ ws, WinHolds s ws ∧ WinHolds u ws := by
  obtain ⟨ws, hs⟩ := winHolds_of_written hwn hww
  exact ⟨ws, hs, winHolds_of_same hs hn hw⟩

/-- In two READY states with the same configuration registers that agree on the operands a command reads, the
command computes the same outcome (10_state.md R31). -/
theorem exec_same (hs : s.phase = .ready regs) (hu : u.phase = .ready regs) (hw : OperandsWritten i s)
    (hsame : ∀ r ∈ Instr.reads i, sameOperand s.ops u.ops r) :
    ∃ x, exec i s = .next (finish s x) ∧ exec i u = .next (finish u x) := by
  cases i <;> simp only [OperandsWritten, Instr.reads, List.forall_mem_cons, List.not_mem_nil, false_imp_iff,
    implies_true, and_true] at hw hsame
  case enc =>
    obtain ⟨v, hv, hv'⟩ := exists_operand_of_same hw.1 hsame.1
    obtain ⟨bw, hb, hb'⟩ := exists_operand_of_same hw.2 hsame.2
    exact ⟨_, exec_enc hs hv hb, exec_enc hu hv' hb'⟩
  case enca =>
    obtain ⟨v, hv, hv'⟩ := exists_operand_of_same hw hsame
    exact ⟨.ok _, exec_enca hs hv, exec_enca hu hv'⟩
  case rup32 =>
    obtain ⟨v, hv, hv'⟩ := exists_operand_of_same hw hsame
    exact ⟨.ok _, exec_rup32 hs hv, exec_rup32 hu hv'⟩
  case dec =>
    obtain ⟨ws, hws, hws'⟩ := exists_words_of_same hw.1 hw.2 hsame.1 hsame.2
    exact ⟨_, exec_dec hs hws, exec_dec hu hws'⟩
  case decdeobfU32 | decdeobfS32 =>
    obtain ⟨ws, hws, hws'⟩ := exists_words_of_same hw.1 hw.2 hsame.1 hsame.2
    exact ⟨_, decdeobf32_ready hs _ _ hws, decdeobf32_ready hu _ _ hws'⟩
  case decdeobfU64 | decdeobfS64 =>
    obtain ⟨ws, hws, hws'⟩ := exists_words_of_same hw.1 hw.2 hsame.1 hsame.2
    exact ⟨_, decdeobf64_ready hs _ _ hws, decdeobf64_ready hu _ _ hws'⟩
  case obfencU32 | obfencS32 =>
    obtain ⟨x, hx, hx'⟩ := exists_operand_of_same hw hsame
    exact ⟨.ok _, obfenc32_ready hs _ _ hx, obfenc32_ready hu _ _ hx'⟩
  case obfencU64 | obfencS64 =>
    obtain ⟨x, hx, hx'⟩ := exists_operand_of_same hw hsame
    exact ⟨.ok _, obfenc64_ready hs _ _ hx, obfenc64_ready hu _ _ hx'⟩
  case obfU32 | obfS32 | deobfU32 | deobfS32 =>
    obtain ⟨x, hx, hx'⟩ := exists_operand_of_same hw hsame
    exact ⟨.ok _, permute32_ready hs _ hx, permute32_ready hu _ hx'⟩
  case obfU64 | obfS64 | deobfU64 | deobfS64 =>
    obtain ⟨x, hx, hx'⟩ := exists_operand_of_same hw hsame
    exact ⟨.ok _, permute64_ready hs _ hx, permute64_ready hu _ hx'⟩

/-- The STATUS and results that `finish` leaves do not depend on the state it ends in. -/
theorem finish_eq_update (s u : State) (x : Except ErrKind Results) :
    finish u x = { u with status := (finish s x).status, res := (finish s x).res } := by
  cases x <;> rfl

/-- Settles O20: the two states see one outcome, and on success it holds the command's own results. -/
theorem resultsDependOnTheOperandsRead : Obligations.ResultsDependOnTheOperandsRead := by
  intro i s u t regs hs hu hsame h
  refine ⟨?_, fun hok => ((successWritesExactlyItsResults i s t regs hs h).1 hok).1⟩
  obtain ⟨hquiet, -⟩ | ⟨_, _, -, hw, -, -⟩ := exec_cases h
  · exact absurd hs (hquiet regs)
  · obtain ⟨x, hxs, hxu⟩ := exec_same hs hu hw hsame
    obtain rfl : finish s x = t := by simpa [hxs] using h
    rw [hxu, finish_eq_update s u x]

/-! Reset and initialisation -/

/-- A block at its reset values holds no Token in any space (20_memory.md R50). -/
theorem memRead_eq_none_of_reset (hp : s.phase = .reset) (ho : s.ops = {}) (hr : s.res = {}) (sp : Space) (a : Nat) :
    s.memRead sp a = none := by
  cases sp <;> simp [State.memRead, State.entries, hp, ho, hr]

/-- Outside READY the inverses and multipliers hold no value (10_state.md R46). -/
theorem hostRead_derived_eq_none (h : NotReady s) :
    ∀ r ∈ [HostReg.pinv32, .pinv64, .pm32, .pm64], s.hostRead r = none := by
  simp [hostRead_eq_none_iff, NoValue, h]

/-- Outside READY the stage constants hold no value (R46). -/
theorem hostRead_stage_eq_none (h : NotReady s) (k : Engine) :
    s.hostRead (.xk k) = none ∧ s.hostRead (.ak k) = none := by
  simp [hostRead_eq_none_iff, NoValue, h]

/-- The step of initialisation under an odd `P` (70_reset_and_hazards.md R218). -/
theorem stepOf_initialise_odd {c : Cfg} (hc : c.prime % 2 = 1) (h : InitialisationIsNext s) :
    stepOf c s = .next { s with phase := .ready (derivedRegs c) } := by
  simp [stepOf_initialise c h, initialise, initialPhase, hc]

/-- The step of initialisation under an even `P` (R219). -/
theorem stepOf_initialise_even {c : Cfg} (hc : c.prime % 2 = 0) (h : InitialisationIsNext s) :
    stepOf c s = .next { s with phase := .fatal } := by
  simp [stepOf_initialise c h, initialise, initialPhase, hc]

/-- At reset initialisation comes next, since the host has no line yet. -/
theorem reset_initialisationIsNext : InitialisationIsNext State.reset := ⟨rfl, .inr rfl⟩

/-- The inverse pattern of an odd number, on numbers, as R39 writes it. -/
theorem mul_inverse_toNat_mod {w n : Nat} (hw0 : 0 < w) (hw : w ≤ 96) (hn : n % 2 = 1) :
    n * (inverse (BitVec.ofNat w n)).toNat % 2 ^ w = 1 := by
  have h := congrArg BitVec.toNat (mul_inverse hw hn)
  simpa [BitVec.toNat_mul, Nat.mod_eq_of_lt (Nat.one_lt_two_pow hw0.ne')] using h

/-- Settles O1: the values at reset, after a successful and after a fatal initialisation. -/
theorem resetLeavesTheTabledValues : Obligations.ResetLeavesTheTabledValues := by
  have hreset : NotReady State.reset := nofun
  have hfatal : NotReady { State.reset with phase := .fatal } := nofun
  refine ⟨rfl, rfl, rfl, rfl, memRead_eq_none_of_reset rfl rfl rfl, hostRead_derived_eq_none hreset,
    hostRead_stage_eq_none hreset, fun c hc => ?_, fun c hc => ?_⟩
  · exact ⟨derivedRegs c, stepOf_initialise_odd hc reset_initialisationIsNext, rfl,
      mul_inverse_toNat_mod (by decide) (by decide) hc, mul_inverse_toNat_mod (by decide) (by decide) hc,
      BitVec.toNat_ofNat .., BitVec.toNat_ofNat .., rfl, rfl, rfl, rfl⟩
  · exact ⟨_, stepOf_initialise_even hc reset_initialisationIsNext, rfl, hostRead_derived_eq_none hfatal,
      hostRead_stage_eq_none hfatal⟩

end Sys2Proof.Machine
end

section
/-! PROOFS. The opcode map of R85 and the illegal bytes of R86, from the three fields of a command byte. -/

namespace Sys2Proof.Machine

open Sys2Proof.Safety

variable {b : Byte} {i : Instr}

/-! The fields of a byte -/

/-- A byte is its three fields side by side, `CLASS` first (30_encoding.md R81). -/
theorem byte_eq_fields (b : Byte) : classField b ++ zeroField b ++ funcField b = b := by
  ext j hj
  simp only [classField, zeroField, funcField, BitVec.getElem_append, BitVec.getElem_extractLsb']
  grind

theorem classField_cases (b : Byte) :
    classField b = 0b00 ∨ classField b = 0b01 ∨ classField b = 0b10 ∨ classField b = 0b11 := by
  generalize classField b = c
  revert c
  decide

/-! The decoder, by field (R82, R83, R86) -/

theorem decode_of_zero_ne (hz : zeroField b ≠ 0b000) : decode b = .error .zeroField := if_pos hz

theorem decode_codec (hz : zeroField b = 0b000) (hc : classField b = 0b00) :
    decode b = decodeCodec (funcField b) := by
  simp [decode, hz, hc]

theorem decode_permutation (hz : zeroField b = 0b000) (hc : classField b = 0b01) :
    decode b = .ok (decodePermutation ((funcField b).getLsbD 2) ((funcField b).getLsbD 1)
      ((funcField b).getLsbD 0)) := by
  simp [decode, hz, hc]

theorem decode_composed (hz : zeroField b = 0b000) (hc : classField b = 0b10) :
    decode b = .ok (decodeComposed ((funcField b).getLsbD 2) ((funcField b).getLsbD 1)
      ((funcField b).getLsbD 0)) := by
  simp [decode, hz, hc]

theorem decode_reserved (hz : zeroField b = 0b000) (hc : classField b = 0b11) :
    decode b = .error .reservedClass := by
  simp [decode, hz, hc]

/-- Class 00 rejects the functions from 100 (R82). -/
theorem decodeCodec_eq_error_iff (func : BitVec 3) :
    (∃ k, decodeCodec func = .error k) ↔ 0b100 ≤ func.toNat := by
  unfold decodeCodec
  split
  case h_5 => exact iff_of_true ⟨_, rfl⟩ (by grind)
  all_goals simp [*]

/-! The encoder undoes the decoder, class by class -/

theorem encode_of_decodeCodec (func : BitVec 3) (i : Instr) :
    decodeCodec func = .ok i → encode i = 0b00#2 ++ 0b000#3 ++ func := by
  revert func
  cases i <;> decide

theorem encode_decodePermutation : ∀ func : BitVec 3,
    encode (decodePermutation (func.getLsbD 2) (func.getLsbD 1) (func.getLsbD 0)) = 0b01#2 ++ 0b000#3 ++ func := by
  decide

theorem encode_decodeComposed : ∀ func : BitVec 3,
    encode (decodeComposed (func.getLsbD 2) (func.getLsbD 1) (func.getLsbD 0)) = 0b10#2 ++ 0b000#3 ++ func := by
  decide

/-- A byte that decodes to a command is the command's own byte (R85). -/
theorem encode_of_decode (h : decode b = .ok i) : encode i = b := by
  have hz : zeroField b = 0b000 := by
    by_contra hz
    simp [decode_of_zero_ne hz] at h
  rw [← byte_eq_fields b, hz]
  obtain hc | hc | hc | hc := classField_cases b <;> rw [hc]
  · exact encode_of_decodeCodec _ i (decode_codec hz hc ▸ h)
  · obtain rfl := Except.ok.inj (decode_permutation hz hc ▸ h)
    exact encode_decodePermutation _
  · obtain rfl := Except.ok.inj (decode_composed hz hc ▸ h)
    exact encode_decodeComposed _
  · simp [decode_reserved hz hc] at h

/-- The decoder reads a command from the command's own byte alone (R85). -/
theorem decode_eq_ok_iff (b : Byte) (i : Instr) : decode b = .ok i ↔ encode i = b := by
  refine ⟨encode_of_decode, ?_⟩
  rintro rfl
  cases i <;> rfl

/-- Settles O9: the rows of the map are the commands beside their bytes. -/
theorem opcodeMapIsComplete : Obligations.OpcodeMapIsComplete := by
  intro b i
  rw [decode_eq_ok_iff, eq_comm]
  cases i <;> simp [encode]

/-! Illegal bytes -/

/-- The decoder rejects a byte of the reserved class, with a non-zero `ZERO`, or with a reserved codec function (R86). -/
theorem decode_eq_error_iff (b : Byte) : (∃ k, decode b = .error k) ↔
    classField b = 0b11 ∨ zeroField b ≠ 0b000 ∨ (classField b = 0b00 ∧ 0b100 ≤ (funcField b).toNat) := by
  by_cases hz : zeroField b = 0b000
  · obtain hc | hc | hc | hc := classField_cases b
    · simp [decode_codec hz hc, decodeCodec_eq_error_iff, hz, hc]
    · simp [decode_permutation hz hc, hz, hc]
    · simp [decode_composed hz hc, hz, hc]
    · simp [decode_reserved hz hc, hc]
  · exact iff_of_true ⟨_, decode_of_zero_ne hz⟩ (.inr (.inl hz))

/-- How many of the 64 bytes of a class are no command (R86). -/
def illegalInClass (c : Nat) : Nat :=
  (List.range 64).countP fun n => (decode (BitVec.ofNat 8 (64 * c + n))).toOption.isNone

/-- Class 00 has 4 commands, classes 01 and 10 have 8 each, and class 11 has none (R85). -/
theorem illegalInClass_values :
    illegalInClass 0 = 60 ∧ illegalInClass 1 = 56 ∧ illegalInClass 2 = 56 ∧ illegalInClass 3 = 64 := by
  decide

/-- Of the 256 bytes, 236 are no command (R86). -/
theorem length_illegalBytes :
    ((List.range 256).filter fun n => (decode (BitVec.ofNat 8 n)).toOption.isNone).length = 236 := by
  obtain ⟨hcodec, hpermutation, hcomposed, hreserved⟩ := illegalInClass_values
  rw [← List.countP_eq_length_filter]
  calc (List.range (64 + 64 + 64 + 64)).countP (fun n => (decode (BitVec.ofNat 8 n)).toOption.isNone)
      = illegalInClass 0 + illegalInClass 1 + illegalInClass 2 + illegalInClass 3 := by
        simp only [List.range_add, List.countP_append, List.countP_map]
        simp [illegalInClass, Function.comp_def]
    _ = 236 := by rw [hcodec, hpermutation, hcomposed, hreserved]

/-- An illegal byte that the host issues in READY raises IllegalCommand (R86). -/
theorem step_illegalByte_ready {s : State} {regs : ConfigRegs} {k : DecodeReject} (hs : s.phase = .ready regs)
    (hact : HostActs s (.issue b)) (hb : decode b = .error k) :
    step s = .next (raise .illegalCommand (hostAt s (s.host.line + 1))) := by
  rw [step_line hact, runLine, runIssue, hb]
  exact illegalByte_ready hs

/-- Settles O11: the rejected fields, the count, and the raise that a rejected byte ends in. -/
theorem illegalByteInReady : Obligations.IllegalByteInReady :=
  ⟨decode_eq_error_iff, length_illegalBytes, fun _ _ _ _ hs hact hb => step_illegalByte_ready hs hact hb⟩

end Sys2Proof.Machine
end

section
/-! PROOFS. The codec's commands: the width that RUP32 and ENCA choose (R100, R111), the frame that ENC writes (R108),
what DEC answers for known and unknown words (R114 to R119), and the round trip (R120). -/

namespace Sys2Proof.Machine

open Sys2Proof.Safety

variable {s : State} {regs : ConfigRegs} {c : Cfg} {rom : Rom} {ws : List Token}

/-! The width helper -/

/-- `rup32(n)` is the least valid width that is at least `n` (R100). -/
theorem rup32_least_validWidth (n : Nat) :
    ValidWidth (rup32 n) ∧ n ≤ rup32 n ∧ ∀ j, ValidWidth j → n ≤ j → rup32 n ≤ j := by
  obtain ⟨hmod, hpos, hle, hleast⟩ := rup32_spec n
  exact ⟨⟨by omega, hmod⟩, hle, fun j hj hn => hleast j hj.1 hj.2 hn⟩

/-- Settles O28: RUP32 ends with `rup32(VIN)` in BWOUT, which is the least valid width. -/
theorem rup32GivesTheLeastWidth : Obligations.Rup32GivesTheLeastWidth := fun _ _ n hs hv =>
  ⟨rup32 n, exec_rup32 hs hv, rup32_least_validWidth n⟩

/-- Settles O29: `rup32` evaluates to the document's value in each row. -/
theorem rup32Table : Obligations.Rup32Table := by
  intro p hp
  have hrow : rup32 p.1 = p.2 := by
    revert p
    decide
  intro s regs hs hv
  rw [exec_rup32 hs hv, hrow]
  rfl

/-- `rup32(bitlen(v))` is `32k` for the least positive `k` whose width `32k` holds `v` (R111). -/
theorem autoWidth_least (v : Nat) : ∃ k, 0 < k ∧ rup32 (bitlen v) = 32 * k ∧ v < 2 ^ (32 * k) ∧
    ∀ j, 0 < j → v < 2 ^ (32 * j) → k ≤ j := by
  obtain ⟨k, hk, hw, hv⟩ := autoWidth_spec v
  refine ⟨k, hk, hw, hv, fun j hj hvj => ?_⟩
  have hle : rup32 (bitlen v) ≤ 32 * j :=
    (rup32_least_validWidth _).2.2 (32 * j) ⟨by omega, by omega⟩ ((bitlen_le_iff ..).2 hvj)
  omega

/-! The encoding commands -/

@[simp] theorem length_frameWords (rom : Rom) (t k : Nat) : (frameWords rom t k).length = 3 * k := by
  simp [frameWords]

/-- Encoding at width `32k` writes the words of the frame of the low `32k` bits (R108). -/
theorem encodeWords_eq_frameWords (c : Cfg) (rom : Rom) (v k : Nat) :
    encodeWords c rom v (32 * k) =
      frameWords rom (v % 2 ^ (32 * k) * 2 ^ k + ck c (32 * k) (bytesBE (v % 2 ^ (32 * k)) (4 * k))) k := by
  rw [encodeWords_eq, frameWords_eq]

/-- EncodeAuto writes the frame of the value itself, at the least width that holds it (R111). -/
theorem encodeAuto_eq_frameWords (c : Cfg) (rom : Rom) (v : Nat) :
    ∃ k, 0 < k ∧ v < 2 ^ (32 * k) ∧ (∀ j, 0 < j → v < 2 ^ (32 * j) → k ≤ j) ∧
      encodeAuto c rom v = frameWords rom (v * 2 ^ k + ck c (32 * k) (bytesBE v (4 * k))) k := by
  obtain ⟨k, hk, hw, hv, hleast⟩ := autoWidth_least v
  refine ⟨k, hk, hv, hleast, ?_⟩
  rw [encodeAuto, hw, encodeWords_eq_frameWords, Nat.mod_eq_of_lt hv]

theorem badWidth_iff (bw : Int) : badWidth bw = true ↔ bw ≤ 0 ∨ bw % 32 ≠ 0 := by
  simp [badWidth]

/-- ENC refuses a bad width whatever the value is (R108). -/
theorem encResult_of_badWidth {bw : Int} (h : bw ≤ 0 ∨ bw % 32 ≠ 0) (v : Nat) :
    encResult c rom v bw = .error .invalidBitWidth :=
  if_pos ((badWidth_iff bw).2 h)

/-- ENC encodes at a width `32k`, `k` positive (R108). -/
theorem encResult_of_width {k : Nat} (hk : 0 < k) (v : Nat) :
    encResult c rom v ((32 * k : Nat) : Int) = .ok { wout := some (encodeWords c rom v (32 * k)) } := by
  have hgood : ¬ badWidth ((32 * k : Nat) : Int) = true := by
    rw [badWidth_iff]
    omega
  rw [encResult, if_neg hgood, Int.toNat_natCast]

/-- ENC at a width `32k` ends well with the encoded words. -/
theorem exec_enc_of_width {v k : Nat} (hs : s.phase = .ready regs) (hv : s.ops.vin = some v)
    (hb : s.ops.bwin = some ((32 * k : Nat) : Int)) (hk : 0 < k) :
    exec .enc s = .next (succeed { wout := some (encodeWords Config.cfg regs.rom v (32 * k)) } s) := by
  rw [exec_enc hs hv hb, encResult_of_width hk, finish_ok]

/-- `MemRead(WOUT:a, 1)` after a command that stored `ws` (R30, R57). -/
theorem succeed_memRead_wout (s : State) (ws : List Token) (a : Nat) :
    (succeed { wout := some ws } s).memRead .wout a = ws[a]? := rfl

/-- The words of a frame of width `32k` stand below index `3k` alone. -/
theorem getElem?_frameWords_eq_ite (rom : Rom) (t k a : Nat) :
    (frameWords rom t k)[a]? = if a < 3 * k then (frameWords rom t k)[a]? else none := by
  split
  · rfl
  · exact List.getElem?_eq_none (by rw [length_frameWords]; omega)

/-- Settles O31: the width test comes first, and a good width stores the words of the frame. -/
theorem encWritesTheFrame : Obligations.EncWritesTheFrame := by
  intro s regs v bw hs hv hb
  refine ⟨fun hbad => ?_, ?_⟩
  · rw [exec_enc hs hv hb, encResult_of_badWidth hbad]
    rfl
  · rintro k rfl hk
    have hexec := exec_enc_of_width hs hv hb hk
    rw [encodeWords_eq_frameWords] at hexec
    refine ⟨hexec, fun t ht a => ?_⟩
    obtain rfl : succeed _ s = t := by simpa [hexec] using ht
    rw [succeed_memRead_wout]
    exact getElem?_frameWords_eq_ite ..

/-- Settles O33: ENCA stores EncodeAuto's words, which are those of the least frame that holds VIN. -/
theorem encaChoosesTheLeastWidth : Obligations.EncaChoosesTheLeastWidth := by
  intro s regs v hs hv
  obtain ⟨k, hk, hlt, hleast, hwords⟩ := encodeAuto_eq_frameWords Config.cfg regs.rom v
  exact ⟨k, hk, hlt, hleast, hwords ▸ exec_enca hs hv⟩

/-! The decoding commands -/

/-- A word that no entry of the ROM holds has no index (R55). -/
theorem romIndex_eq_none_of_unknown {t : Token} (h : ∀ g, romWord rom g ≠ t) : romIndex rom t = none :=
  Option.eq_none_iff_forall_ne_some.2 fun g hg => h g ((romIndex_eq_some_iff ..).1 hg)

/-- Decoding ends with InvalidWord where some word is in no entry of the ROM (R115). -/
theorem decodeWords_of_unknown (c : Cfg) (h : ∃ t ∈ ws, ∀ g, romWord rom g ≠ t) :
    decodeWords c rom ws = .error .invalidWord := by
  obtain ⟨t, ht, hunknown⟩ := h
  exact decodeWords_unknown c ⟨t, ht, romIndex_eq_none_of_unknown hunknown⟩

theorem decResult_of_ok {e ent : Nat} (h : decodeWords c rom ws = .ok (e, ent)) :
    decResult c rom ws = .ok { vout := some e, bwout := some ent } := by
  simp [decResult, h]

theorem decResult_of_error {k : ErrKind} (h : decodeWords c rom ws = .error k) :
    decResult c rom ws = .error k := by
  simp [decResult, h]

theorem decodePattern_of_error {k : ErrKind} (w : Nat) (h : decodeWords c rom ws = .error k) :
    decodePattern w c rom ws = .error k := by
  simp [decodePattern, h]

/-- Every decoding command fails with the kind that decoding the words fails with (R114, R177). -/
theorem exec_decoding_of_error {k : ErrKind} (hs : s.phase = .ready regs) (hw : WinHolds s ws)
    (h : decodeWords Config.cfg regs.rom ws = .error k) :
    ∀ i ∈ [Instr.dec, .decdeobfU32, .decdeobfS32, .decdeobfU64, .decdeobfS64], exec i s = .next (raise k s) := by
  have hdec : exec .dec s = .next (raise k s) := by rw [exec_dec hs hw, decResult_of_error h, finish_error]
  have h32 (f) : decdeobf32 Config.cfg f s = .next (raise k s) := by
    rw [decdeobf32_ready hs _ _ hw, decodePattern_of_error 32 h]
    rfl
  have h64 (f) : decdeobf64 Config.cfg f s = .next (raise k s) := by
    rw [decdeobf64_ready hs _ _ hw, decodePattern_of_error 64 h]
    rfl
  simp only [List.forall_mem_cons, List.not_mem_nil, false_imp_iff, implies_true, and_true]
  exact ⟨hdec, h32 _, h32 _, h64 _, h64 _⟩

/-- Settles O34: the word check comes before the count and the checksum in every decoding command. -/
theorem unknownWordIsInvalid : Obligations.UnknownWordIsInvalid := fun _ _ _ hs hw hunknown =>
  exec_decoding_of_error hs hw (decodeWords_of_unknown _ hunknown)

/-- DEC ends well with the entropy and the width that decoding the words gives (R119). -/
theorem exec_dec_of_ok {e ent : Nat} (hs : s.phase = .ready regs) (hw : WinHolds s ws)
    (h : decodeWords Config.cfg regs.rom ws = .ok (e, ent)) :
    exec .dec s = .next (succeed { vout := some e, bwout := some ent } s) := by
  rw [exec_dec hs hw, decResult_of_ok h, finish_ok]

/-- DEC's body on the words of the frame `{e, x}` of width `32k` accepts exactly the right checksum (R118). -/
theorem decodeWords_frameWords (c : Cfg) (rom : Rom) {e x k : Nat} (hk : 0 < k) (he : e < 2 ^ (32 * k))
    (hx : x < 2 ^ k) :
    decodeWords c rom (frameWords rom (e * 2 ^ k + x) k) =
      if ck c (32 * k) (bytesBE e (4 * k)) = x then .ok (e, 32 * k) else .error .invalidChecksum := by
  rw [frameWords_eq, decodeWords_frame c rom hk he hx]

/-- Settles O36: the words and the count are checked first, then the frame's checksum. -/
theorem decVerifiesTheFrame : Obligations.DecVerifiesTheFrame := by
  intro s regs ws hs hw
  refine ⟨fun hbad => ?_, ?_⟩
  · have herr : decodeWords Config.cfg regs.rom ws = .error .invalidWord :=
      hbad.elim (decodeWords_of_unknown _) (decodeWords_badCount _ _)
    exact exec_decoding_of_error hs hw herr .dec List.mem_cons_self
  · rintro k e x hk he hx rfl
    have hdecode := decodeWords_frameWords Config.cfg regs.rom hk he hx
    split at hdecode
    · rw [if_pos ‹_›]
      exact exec_dec_of_ok hs hw hdecode
    · rw [if_neg ‹_›]
      exact exec_decoding_of_error hs hw hdecode .dec List.mem_cons_self

/-! The round trip -/

/-- Settles O38: DEC's body undoes encoding, at the width that ENCA chose and at the width that ENC was given. -/
theorem encodeThenDecodeGivesTheValue : Obligations.EncodeThenDecodeGivesTheValue := by
  constructor
  · intro s regs v hs hv
    exact ⟨_, exec_enca hs hv, fun u hu hw => exec_dec_of_ok hu hw (decodeWords_encodeAuto ..)⟩
  · intro s regs v k hs hv hb hk
    exact ⟨_, exec_enc_of_width hs hv hb hk, fun u hu hw =>
      exec_dec_of_ok hu hw (decodeWords_encodeWords _ _ v hk)⟩

end Sys2Proof.Machine
end

section
/-! PROOFS. The checksum: its bits are the leading bits of the digest (41_checksum.md R133, R134), and a wrong one in a
frame of known words is the one cause of InvalidChecksum (R138). -/

namespace Sys2Proof.Machine

open Sys2Proof.Safety

variable {s t : State} {regs : ConfigRegs} {c : Cfg} {rom : Rom} {ws : List Token}

/-! The bits of the digest -/

/-- Bit `j` from the left of a byte string's number is bit `7 - j % 8` of byte `j / 8` (R11, R133). -/
theorem intBE_testBit (bs : List Byte) {j : Nat} (hj : j < 8 * bs.length) :
    (intBE bs).testBit (8 * bs.length - 1 - j) =
      ((bs[j / 8]?).map fun b => b.getLsbD (7 - j % 8)).getD false := by
  have hbyte := bytesBE_getElem? (intBE bs) (show j / 8 < bs.length by omega)
  rw [bytesBE_intBE] at hbyte
  rw [hbyte, Option.map_some, Option.getD_some, BitVec.getLsbD_ofNat, Nat.testBit_div_two_pow,
    decide_eq_true (show 7 - j % 8 < 8 by omega), Bool.true_and]
  congr 1
  omega

/-- Where the digest has `ENT/32` bits, they are the checksum's, from the most significant side (R133). -/
theorem ck_testBit {ent j : Nat} (bs : List Byte) (h : ent / 32 ≤ c.dlen) (hj : j < ent / 32) :
    (ck c ent bs).testBit (ent / 32 - 1 - j) = (digest c bs).testBit (c.dlen - 1 - j) := by
  rw [ck, if_pos h, Nat.testBit_div_two_pow]
  congr 1
  omega

/-- Where the digest has fewer than `ENT/32` bits, the checksum is CKX (R134). -/
theorem ck_eq_ckx {ent : Nat} (bs : List Byte) (h : c.dlen < ent / 32) : ck c ent bs = (c.ckx ent bs).toNat :=
  if_neg (Nat.not_le.2 h)

/-- Settles O44: the checksum's bits are the digest's, byte by byte, or those of CKX. -/
theorem checksumIsTheLeadingBits : Obligations.ChecksumIsTheLeadingBits := by
  refine fun c ent bs => ⟨ck_lt c ent bs, fun h j hj => ?_, ck_eq_ckx bs⟩
  have hlen : c.dlen = 8 * (c.hash bs).toList.length := by rw [Vector.length_toList, Cfg.dlen]
  rw [ck_testBit bs h hj, digest, hlen, intBE_testBit _ (by omega)]

/-! The words of a wrong checksum -/

/-- `3k` known words are the words of a frame, whose entropy has `32k` bits and whose checksum has `k` (R91, R117). -/
theorem knownWords_frame {gs : List Index} {k : Nat} (hgs : indicesOf rom ws = some gs) (hlen : ws.length = 3 * k) :
    join gs / 2 ^ k < 2 ^ (32 * k) ∧ ws = frameWords rom (join gs) k := by
  have hws := indicesOf_eq_some hgs
  have hcount : gs.length = 3 * k := by rw [← hlen, ← hws, length_wordsOf]
  constructor
  · rw [Nat.div_lt_iff_lt_mul (by positivity), ← pow_add, show 32 * k + k = 11 * (3 * k) by omega, two_pow_groups,
      ← hcount]
    exact join_lt gs
  · rw [frameWords_eq, ← hcount, groups_join, hws]

/-- Decoding ends with InvalidChecksum on the words of a frame with a wrong checksum alone (R138). -/
theorem frame_of_decodeWords_invalidChecksum (h : decodeWords c rom ws = .error .invalidChecksum) :
    ∃ k e x, 0 < k ∧ e < 2 ^ (32 * k) ∧ x < 2 ^ k ∧ ws = frameWords rom (e * 2 ^ k + x) k ∧
      ck c (32 * k) (bytesBE e (4 * k)) ≠ x := by
  cases hgs : indicesOf rom ws with
  | none => simp [decodeWords_unknown c ((indicesOf_eq_none_iff ..).1 hgs)] at h
  | some gs =>
    by_cases hbad : ws.length = 0 ∨ ws.length % 3 ≠ 0
    · simp [decodeWords_badCount c rom hbad] at h
    · obtain ⟨k, hlen⟩ : ∃ k, ws.length = 3 * k := ⟨ws.length / 3, by omega⟩
      have hk : 0 < k := by omega
      obtain ⟨he, hframe⟩ := knownWords_frame hgs hlen
      have hck : ck c (32 * k) (bytesBE (join gs / 2 ^ k) (4 * k)) ≠ join gs % 2 ^ k := fun heq => by
        simp [decodeWords_known c hgs hlen hk, heq] at h
      exact ⟨k, join gs / 2 ^ k, join gs % 2 ^ k, hk, he, Nat.mod_lt _ (by positivity),
        by rwa [Nat.div_add_mod'], hck⟩

/-! The commands that raise InvalidChecksum -/

/-- A command of READY that ends with an error ends with one of its own kinds (60_exceptions.md R192). -/
theorem mem_mayRaise_of_status {i : Instr} {k : ErrKind} (hs : s.phase = .ready regs) (h : exec i s = .next t)
    (hstatus : t.status = .error k) : k ∈ mayRaise i := by
  obtain ⟨hquiet, -⟩ | ⟨_, x, -, -, rfl, hx⟩ := exec_cases h
  · exact absurd hs (hquiet regs)
  · cases x with
    | ok r => exact nomatch hstatus
    | error k' =>
      obtain rfl : k' = k := Status.error.inj hstatus
      exact hx

/-- InvalidChecksum is a kind of DEC and DECDEOBF alone: the encode side never raises it (R138, R192). -/
theorem decoding_of_mayRaise_invalidChecksum {i : Instr} (h : ErrKind.invalidChecksum ∈ mayRaise i) :
    i ∈ [Instr.dec, .decdeobfU32, .decdeobfS32, .decdeobfU64, .decdeobfS64] := by
  cases i <;> simp_all [mayRaise]

/-- A decoding command reads WINLEN and WIN (10_state.md R31), so with its operands written it has words to decode. -/
theorem winHolds_of_decoding {i : Instr}
    (hi : i ∈ [Instr.dec, .decdeobfU32, .decdeobfS32, .decdeobfU64, .decdeobfS64])
    (hw : OperandsWritten i s) : ∃ ws, WinHolds s ws := by
  have hreads : Instr.reads i = [.winlen, .win] := by
    simp only [List.mem_cons, List.not_mem_nil, or_false] at hi
    rcases hi with rfl | rfl | rfl | rfl | rfl <;> rfl
  exact winHolds_of_written (hw .winlen (by simp [hreads])) (hw .win (by simp [hreads]))

/-- Narrowing a decoded value to a pattern fails only where the value is too wide (43_composed.md R177). -/
theorem decodePattern_of_ok (w : Nat) {e ent : Nat} (h : decodeWords c rom ws = .ok (e, ent)) :
    decodePattern w c rom ws = if 2 ^ w ≤ e then .error .narrowOverflow else .ok (BitVec.ofNat w e) := by
  simp only [decodePattern, h]

/-- No decoding command ends with InvalidChecksum on words that decode (R138). -/
theorem exec_decoding_of_ok {e ent : Nat} (hs : s.phase = .ready regs) (hw : WinHolds s ws)
    (h : decodeWords Config.cfg regs.rom ws = .ok (e, ent)) :
    ∀ i ∈ [Instr.dec, .decdeobfU32, .decdeobfS32, .decdeobfU64, .decdeobfS64],
      ∃ u, exec i s = .next u ∧ u.status ≠ .error .invalidChecksum := by
  have hdec : ∃ u, exec .dec s = .next u ∧ u.status ≠ .error .invalidChecksum :=
    ⟨_, exec_dec_of_ok hs hw h, nofun⟩
  have h32 (f) : ∃ u, decdeobf32 Config.cfg f s = .next u ∧ u.status ≠ .error .invalidChecksum := by
    refine ⟨_, decdeobf32_ready hs _ f hw, ?_⟩
    rw [decodePattern_of_ok 32 h]
    split <;> exact nofun
  have h64 (f) : ∃ u, decdeobf64 Config.cfg f s = .next u ∧ u.status ≠ .error .invalidChecksum := by
    refine ⟨_, decdeobf64_ready hs _ f hw, ?_⟩
    rw [decodePattern_of_ok 64 h]
    split <;> exact nofun
  simp only [List.forall_mem_cons, List.not_mem_nil, false_imp_iff, implies_true, and_true]
  exact ⟨hdec, h32 _, h32 _, h64 _, h64 _⟩

/-- A decoding command that ends with InvalidChecksum does so because decoding its words does. -/
theorem decodeWords_of_status_invalidChecksum {i : Instr} (hs : s.phase = .ready regs) (hw : WinHolds s ws)
    (hi : i ∈ [Instr.dec, .decdeobfU32, .decdeobfS32, .decdeobfU64, .decdeobfS64]) (h : exec i s = .next t)
    (hstatus : t.status = .error .invalidChecksum) :
    decodeWords Config.cfg regs.rom ws = .error .invalidChecksum := by
  cases hd : decodeWords Config.cfg regs.rom ws with
  | ok p =>
    obtain ⟨u, hu, hne⟩ := exec_decoding_of_ok hs hw hd i hi
    obtain rfl : u = t := by simpa [hu] using h
    exact absurd hstatus hne
  | error k =>
    obtain rfl : raise k s = t := by simpa [exec_decoding_of_error hs hw hd i hi] using h
    rw [Status.error.inj hstatus]

/-- Settles O39: only the decoding commands have the kind, and decoding fails with it on a wrong checksum alone. -/
theorem invalidChecksumHasOneCause : Obligations.InvalidChecksumHasOneCause := by
  intro i s t regs hs h hstatus
  have hi := decoding_of_mayRaise_invalidChecksum (mem_mayRaise_of_status hs h hstatus)
  obtain ⟨hquiet, -⟩ | ⟨_, _, -, hwritten, -, -⟩ := exec_cases h
  · exact absurd hs (hquiet regs)
  · obtain ⟨ws, hws⟩ := winHolds_of_decoding hi hwritten
    obtain ⟨k, e, x, hk, he, hx, rfl, hne⟩ :=
      frame_of_decodeWords_invalidChecksum (decodeWords_of_status_invalidChecksum hs hws hi h hstatus)
    exact ⟨hi, k, e, x, hk, he, hx, hws, hne⟩

end Sys2Proof.Machine
end

section
/-! PROOFS. The permutation commands on numbers: what OBF and DEOBF leave in the result register (42_permutation.md R150,
R151). -/

namespace Sys2Proof.Machine

open Sys2Proof.Safety

/-- The difference of two patterns is the non-negative remainder of the integer difference (R151). -/
theorem sub_toNat_eq_emod {w : Nat} (y a : BitVec w) :
    (y - a).toNat = (((y.toNat : Int) - a.toNat) % 2 ^ w).toNat := by
  have hcast : ((y - a).toNat : Int) = ((y.toNat : Int) - a.toNat) % 2 ^ w := by
    have ha : a.toNat ≤ 2 ^ w := a.isLt.le
    rw [BitVec.toNat_sub]
    push_cast [ha]
    rw [sub_add_eq_add_sub, add_sub_assoc, Int.add_emod_left]
  rw [← hcast, Int.toNat_natCast]

/-- The backward function on numbers, as R151 writes it. -/
theorem deobf_toNat {w : Nat} (pinv : BitVec w) (k : EngineConst w) (y : BitVec w) :
    (deobf pinv k y).toNat =
      ((((y.toNat : Int) - k.ak.toNat) % 2 ^ w).toNat ^^^ k.xk.toNat) * pinv.toNat % 2 ^ w := by
  rw [deobf, BitVec.toNat_mul, BitVec.toNat_xor, sub_toNat_eq_emod]

section Ready

variable {s : State} {regs : ConfigRegs} (h : s.phase = .ready regs)
include h

/-- Each 32-bit OBF command writes its own engine's forward image of X32IN (R153, R154). -/
theorem exec_obf32_ready {x : BitVec 32} (hx : s.ops.x32in = some x) :
    ∀ p ∈ [(Instr.obfU32, regs.u32), (.obfS32, regs.s32)],
      exec p.1 s = .next (done s { x32out := some (obf regs.pm32 p.2 x) }) := by
  simp only [List.forall_mem_cons, List.not_mem_nil, false_imp_iff, implies_true, and_true]
  exact ⟨permute32_ready h obfOfU32 hx, permute32_ready h obfOfS32 hx⟩

/-- Each 64-bit OBF command writes its own engine's forward image of X64IN (R155, R156). -/
theorem exec_obf64_ready {x : BitVec 64} (hx : s.ops.x64in = some x) :
    ∀ p ∈ [(Instr.obfU64, regs.u64), (.obfS64, regs.s64)],
      exec p.1 s = .next (done s { x64out := some (obf regs.pm64 p.2 x) }) := by
  simp only [List.forall_mem_cons, List.not_mem_nil, false_imp_iff, implies_true, and_true]
  exact ⟨permute64_ready h obfOfU64 hx, permute64_ready h obfOfS64 hx⟩

/-- Each 32-bit DEOBF command writes its own engine's backward image of X32IN (R157, R158). -/
theorem exec_deobf32_ready {y : BitVec 32} (hy : s.ops.x32in = some y) :
    ∀ p ∈ [(Instr.deobfU32, regs.u32), (.deobfS32, regs.s32)],
      exec p.1 s = .next (done s { x32out := some (deobf regs.pinv32 p.2 y) }) := by
  simp only [List.forall_mem_cons, List.not_mem_nil, false_imp_iff, implies_true, and_true]
  exact ⟨permute32_ready h deobfOfU32 hy, permute32_ready h deobfOfS32 hy⟩

/-- Each 64-bit DEOBF command writes its own engine's backward image of X64IN (R159, R160). -/
theorem exec_deobf64_ready {y : BitVec 64} (hy : s.ops.x64in = some y) :
    ∀ p ∈ [(Instr.deobfU64, regs.u64), (.deobfS64, regs.s64)],
      exec p.1 s = .next (done s { x64out := some (deobf regs.pinv64 p.2 y) }) := by
  simp only [List.forall_mem_cons, List.not_mem_nil, false_imp_iff, implies_true, and_true]
  exact ⟨permute64_ready h deobfOfU64 hy, permute64_ready h deobfOfS64 hy⟩

end Ready

/-- Settles O45: each command writes its engine's forward image, which on numbers is R150's formula. -/
theorem obfMultipliesXorsAdds : Obligations.ObfMultipliesXorsAdds :=
  ⟨fun _ _ _ hs hx p hp => ⟨_, exec_obf32_ready hs hx p hp, obf_toNat ..⟩,
    fun _ _ _ hs hx p hp => ⟨_, exec_obf64_ready hs hx p hp, obf_toNat ..⟩⟩

/-- Settles O46: each command writes its engine's backward image, which on numbers is R151's formula. -/
theorem deobfUndoesTheStages : Obligations.DeobfUndoesTheStages :=
  ⟨fun _ _ _ hs hy p hp => ⟨_, exec_deobf32_ready hs hy p hp, deobf_toNat ..⟩,
    fun _ _ _ hs hy p hp => ⟨_, exec_deobf64_ready hs hy p hp, deobf_toNat ..⟩⟩

end Sys2Proof.Machine
end

section
/-! PROOFS. The composed commands: the frame that OBFENC writes (43_composed.md R171 to R176), and the order in which
DECDEOBF checks its words, narrows and unscrambles (R177 to R181). -/

namespace Sys2Proof.Machine

open Sys2Proof.Safety

variable {s : State} {regs : ConfigRegs}

/-! OBFENC -/

/-- A command that stores EncodeAuto's words of `v` stores the least frame that holds `v` (R111, R172). -/
theorem exec_stores_leastFrame {i : Instr} {v : Nat}
    (h : exec i s = .next (succeed { wout := some (encodeAuto Config.cfg regs.rom v) } s)) :
    ∃ k, 0 < k ∧ v < 2 ^ (32 * k) ∧ (∀ j, 0 < j → v < 2 ^ (32 * j) → k ≤ j) ∧
      exec i s = .next (done s
        { wout := some (frameWords regs.rom (v * 2 ^ k + ck Config.cfg (32 * k) (bytesBE v (4 * k))) k) }) := by
  obtain ⟨k, hk, hlt, hleast, hwords⟩ := encodeAuto_eq_frameWords Config.cfg regs.rom v
  exact ⟨k, hk, hlt, hleast, hwords ▸ h⟩

/-- Settles O53: each engine stores EncodeAuto's words of its own scrambled pattern, which are the least frame's. -/
theorem obfencWritesTheScrambledWords : Obligations.ObfencWritesTheScrambledWords := by
  constructor
  · intro s regs x hs hx
    simp only [List.forall_mem_cons, List.not_mem_nil, false_imp_iff, implies_true, and_true]
    exact ⟨exec_stores_leastFrame (obfenc32_ready hs _ obfOfU32 hx),
      exec_stores_leastFrame (obfenc32_ready hs _ obfOfS32 hx)⟩
  · intro s regs x hs hx
    simp only [List.forall_mem_cons, List.not_mem_nil, false_imp_iff, implies_true, and_true]
    exact ⟨exec_stores_leastFrame (obfenc64_ready hs _ obfOfU64 hx),
      exec_stores_leastFrame (obfenc64_ready hs _ obfOfS64 hx)⟩

/-! DECDEOBF -/

/-- On the words of the frame `{e, x}` the checksum is tested first, and only then whether `e` fits (R177). -/
theorem decodePattern_frameWords (w : Nat) (c : Cfg) (rom : Rom) {e x k : Nat} (hk : 0 < k) (he : e < 2 ^ (32 * k))
    (hx : x < 2 ^ k) :
    decodePattern w c rom (frameWords rom (e * 2 ^ k + x) k) =
      if ck c (32 * k) (bytesBE e (4 * k)) ≠ x then .error .invalidChecksum
      else if 2 ^ w ≤ e then .error .narrowOverflow else .ok (BitVec.ofNat w e) := by
  have hdecode := decodeWords_frameWords c rom hk he hx
  by_cases hck : ck c (32 * k) (bytesBE e (4 * k)) = x
  · rw [if_pos hck] at hdecode
    rw [if_neg (not_not_intro hck), decodePattern_of_ok w hdecode]
  · rw [if_neg hck] at hdecode
    rw [if_pos hck, decodePattern_of_error w hdecode]

/-- A 32-bit DECDEOBF on a frame's words ends as the checksum, then the size of the value, decide (R178, R179). -/
theorem decdeobf32_frameWords (hs : s.phase = .ready regs) (f : ConfigRegs → BitVec 32 → BitVec 32) {e x k : Nat}
    (hk : 0 < k) (he : e < 2 ^ (32 * k)) (hx : x < 2 ^ k)
    (hw : WinHolds s (frameWords regs.rom (e * 2 ^ k + x) k)) :
    decdeobf32 Config.cfg f s = .next
      (if ck Config.cfg (32 * k) (bytesBE e (4 * k)) ≠ x then failed s .invalidChecksum
       else if 2 ^ 32 ≤ e then failed s .narrowOverflow
       else done s { x32out := some (f regs (BitVec.ofNat 32 e)) }) := by
  rw [decdeobf32_ready hs _ f hw, decodePattern_frameWords 32 _ _ hk he hx]
  split
  · rfl
  · split <;> rfl

/-- A 64-bit DECDEOBF on a frame's words ends as the checksum, then the size of the value, decide (R180, R181). -/
theorem decdeobf64_frameWords (hs : s.phase = .ready regs) (f : ConfigRegs → BitVec 64 → BitVec 64) {e x k : Nat}
    (hk : 0 < k) (he : e < 2 ^ (32 * k)) (hx : x < 2 ^ k)
    (hw : WinHolds s (frameWords regs.rom (e * 2 ^ k + x) k)) :
    decdeobf64 Config.cfg f s = .next
      (if ck Config.cfg (32 * k) (bytesBE e (4 * k)) ≠ x then failed s .invalidChecksum
       else if 2 ^ 64 ≤ e then failed s .narrowOverflow
       else done s { x64out := some (f regs (BitVec.ofNat 64 e)) }) := by
  rw [decdeobf64_ready hs _ f hw, decodePattern_frameWords 64 _ _ hk he hx]
  split
  · rfl
  · split <;> rfl

/-- Settles O55: the word and count checks end every DECDEOBF alike, and on a frame its checksum and then the size of
its value decide the end. -/
theorem decdeobfNarrowsAndUnscrambles : Obligations.DecdeobfNarrowsAndUnscrambles := by
  intro s regs ws hs hw
  refine ⟨fun hbad i hi => ?_, ?_⟩
  · have herr : decodeWords Config.cfg regs.rom ws = .error .invalidWord :=
      hbad.elim (decodeWords_of_unknown _) (decodeWords_badCount _ _)
    exact exec_decoding_of_error hs hw herr i (List.mem_cons_of_mem _ hi)
  · rintro k e x hk he hx rfl
    simp only [List.forall_mem_cons, List.not_mem_nil, false_imp_iff, implies_true, and_true]
    exact ⟨⟨decdeobf32_frameWords hs deobfOfU32 hk he hx hw, decdeobf32_frameWords hs deobfOfS32 hk he hx hw⟩,
      decdeobf64_frameWords hs deobfOfU64 hk he hx hw, decdeobf64_frameWords hs deobfOfS64 hk he hx hw⟩

end Sys2Proof.Machine
end

section
/-! PROOFS. How a command of READY fails: STATUS holds the kind and nothing else is kept (60_exceptions.md R195), and
InvalidBitWidth is the failure of ENC at a bad width (R186). -/

namespace Sys2Proof.Machine

open Sys2Proof.Safety

/-- Settles O15: a command of READY ends by `finish`, which leaves an error kind in STATUS only by raising it. -/
theorem failedCommandLeavesNoResult : Obligations.FailedCommandLeavesNoResult := by
  intro i s t regs k hs h hstatus
  obtain ⟨hquiet, -⟩ | ⟨_, x, -, -, rfl, -⟩ := exec_cases h
  · exact absurd hs (hquiet regs)
  · cases x with
    | ok r => exact nomatch hstatus
    | error k' =>
      obtain rfl : k' = k := Status.error.inj hstatus
      rfl

/-- InvalidBitWidth stands in the row of ENC alone: ENCA and OBFENC choose a valid width themselves (R186, R192). -/
theorem eq_enc_of_mayRaise_invalidBitWidth {i : Instr} (h : ErrKind.invalidBitWidth ∈ mayRaise i) : i = .enc := by
  cases i
  case enc => rfl
  all_goals simp [mayRaise] at h

/-- Settles O30: ENC tests the width first, and a command ends only with a kind that it may raise. -/
theorem encOfABadWidthFails : Obligations.EncOfABadWidthFails :=
  ⟨fun s regs v bw hs hv hb => (encWritesTheFrame s regs v bw hs hv hb).1,
    fun _ _ _ _ hs h hstatus => eq_enc_of_mayRaise_invalidBitWidth (mem_mayRaise_of_status hs h hstatus)⟩

end Sys2Proof.Machine
end

section
/-! PROOFS. Initialisation, the changes of PHASE and the block outside READY (70_reset_and_hazards.md R216 to R221). -/

namespace Sys2Proof.Machine

open Sys2Proof.Safety

variable {s t : State}

/-! Initialisation -/

/-- An odd number has one inverse below `2^w`, and the block's iteration computes it (10_state.md R39). -/
theorem mul_mod_eq_one_iff_eq_inverse {w n p : Nat} (hw0 : 0 < w) (hw : w ≤ 96) (hn : n % 2 = 1) (hp : p < 2 ^ w) :
    n * p % 2 ^ w = 1 ↔ p = (inverse (BitVec.ofNat w n)).toNat := by
  have hinv := mul_inverse_toNat_mod hw0 hw hn
  constructor
  · intro h
    have hcoprime : Nat.Coprime (2 ^ w) n := (Nat.coprime_two_left.2 (Nat.odd_iff.2 hn)).pow_left w
    have hmul : n * p ≡ n * (inverse (BitVec.ofNat w n)).toNat [MOD 2 ^ w] := h.trans hinv.symm
    exact (hmul.cancel_left_of_coprime hcoprime).eq_of_lt_of_lt hp (BitVec.isLt _)
  · rintro rfl
    exact hinv

/-- Settles O4: the step writes `derivedRegs`, whose inverses are the unique ones. -/
theorem initialisationOfAnOddPrime : Obligations.InitialisationOfAnOddPrime := by
  refine ⟨fun _ => rfl, fun c s hc h => ⟨derivedRegs c, stepOf_initialise_odd hc h,
    memRead_wrom (regs := derivedRegs c) rfl, rfl, BitVec.toNat_ofNat .., BitVec.toNat_ofNat .., fun p hp => ?_,
    fun p hp => ?_, rfl, rfl, rfl, rfl⟩⟩
  · exact mul_mod_eq_one_iff_eq_inverse (by decide) (by decide) hc hp
  · exact mul_mod_eq_one_iff_eq_inverse (by decide) (by decide) hc hp

/-- Settles O5: initialisation ends in the phase that the parity of `P` selects. -/
theorem initialisationOfAnEvenPrimeIsFatal : Obligations.InitialisationOfAnEvenPrimeIsFatal :=
  fun _ _ h => ⟨fun hc => stepOf_initialise_even hc h, fun hc => ⟨_, stepOf_initialise_odd hc h⟩⟩

/-! The host's actions and PHASE -/

/-- An illegal byte does not change PHASE, whether it is ignored or raises. -/
theorem illegalByte_phase (h : illegalByte s = .next t) : t.phase = s.phase := by
  by_cases hs : NotReady s
  · rw [illegalByte_quiet hs] at h
    cases h
    rfl
  · obtain ⟨regs, hr⟩ : ∃ regs, s.phase = .ready regs := by simpa [NotReady] using hs
    rw [illegalByte_ready hr] at h
    cases h
    rfl

/-- No byte that the host issues changes PHASE. -/
theorem runIssue_phase {b : Byte} (h : runIssue b s = .next t) : t.phase = s.phase := by
  unfold runIssue at h
  split at h
  · obtain ⟨-, hphase, -⟩ := commandsKeepAllButStatusAndResults _ s t h
    exact hphase
  · exact illegalByte_phase h

/-- A host read that has an answer does not change PHASE (20_memory.md R65). -/
theorem runRead_phase {r : HostReg} (h : runRead r s = .next t) : t.phase = s.phase := by
  unfold runRead at h
  split at h <;> cases h
  rfl

/-- Of the lines of a host program only a reset changes PHASE (R216, R220). -/
theorem runLine_phase {l : HostLine} (hl : l ≠ .reset) (h : runLine l s = .next t) : t.phase = s.phase := by
  cases l with
  | wr w =>
    cases h
    exact writeOperand_phase s w
  | cmd i => exact runIssue_phase h
  | issue b => exact runIssue_phase h
  | rd r => exact runRead_phase h
  | ifNotOk label =>
    cases h
    split <;> rfl
  | goto label =>
    cases h
    rfl
  | reset => exact absurd rfl hl

/-- The host's place is no state of the block (log entry 5). -/
@[simp] theorem hostAt_phase (s : State) (n : Nat) : (hostAt s n).phase = s.phase := rfl

/-- Where the host resets the block, the step ends in phase RESET (R215). -/
theorem step_reset_phase (hact : HostActs s .reset) (h : step s = .next t) : t.phase = .reset := by
  rw [step_line hact] at h
  cases h
  rfl

/-- A step on any other line of the host keeps PHASE (R216, R220). -/
theorem step_line_phase {l : HostLine} (hact : HostActs s l) (hl : l ≠ .reset) (h : step s = .next t) :
    t.phase = s.phase := by
  rw [step_line hact] at h
  exact (runLine_phase hl h).trans (hostAt_phase ..)

/-- Initialisation ends in FATAL or READY (R218, R219). -/
theorem initialPhase_cases (c : Cfg) : initialPhase c = .fatal ∨ ∃ r, initialPhase c = .ready r := by
  unfold initialPhase
  split
  · exact .inr ⟨_, rfl⟩
  · exact .inl rfl

/-- Settles O6, by what the step is: initialisation, a line of the host, or nothing. -/
theorem phaseIsLeftOnlyByReset : Obligations.PhaseIsLeftOnlyByReset := by
  intro s t h
  refine ⟨fun hp hl => ?_, fun hl hp => step_reset_phase ⟨hl, .inl hp⟩ h,
    fun hp => ⟨fun hinit => ?_, fun hinit => ?_⟩⟩
  · obtain hinit | ⟨l, hact⟩ | ⟨-, hidle⟩ := step_kinds s
    · exact absurd hinit.1 hp
    · exact step_line_phase hact (by rintro rfl; exact hl hact.1) h
    · rw [step_quiet hp hidle] at h
      cases h
      rfl
  · have hstep : step s = .next (initialise Config.cfg s) := stepOf_initialise _ hinit
    rw [hstep] at h
    cases h
    exact initialPhase_cases _
  · obtain hinit' | ⟨l, hact⟩ | ⟨hp', -⟩ := step_kinds s
    · exact absurd hinit' hinit
    · by_cases hl : l = .reset
      · subst hl
        exact step_reset_phase hact h
      · exact (step_line_phase hact hl h).trans hp
    · exact absurd hp hp'

/-! Outside READY -/

/-- The host's move to another line does not make the block READY. -/
theorem notReady_hostAt (hs : NotReady s) (n : Nat) : NotReady (hostAt s n) := fun regs => by simpa using hs regs

/-- Outside READY any byte, a command's or an illegal one, is ignored (R221). -/
theorem runIssue_quiet (hs : NotReady s) (b : Byte) : runIssue b s = .next s := by
  unfold runIssue
  split
  · exact exec_quiet hs _
  · exact illegalByte_quiet hs

/-- Settles O12: the gate of PHASE stands before every command and illegal byte, and before no write. -/
theorem commandsOutsideReadyAreIgnored : Obligations.CommandsOutsideReadyAreIgnored :=
  fun _ hs => ⟨exec_quiet hs, fun b hact => (step_line hact).trans (runIssue_quiet (notReady_hostAt hs _) b),
    fun hinv => hinv.quiet hs, fun _ hact => step_line hact⟩

end Sys2Proof.Machine
end

section
/-! PROOFS. The invariant of the machine: it holds at reset, and initialisation, every line of the host and every
command keep it. -/

namespace Sys2Proof.Machine

open Sys2Proof.Safety

variable {s t : State} {regs : ConfigRegs} {i : Instr} {r : Results} {c : Cfg} {rom : Rom}

/-! The results of a command that succeeds -/

/-- What the end of a command leaves determines what the command computed. -/
theorem finish_injective (s : State) : Function.Injective (finish s) := by
  intro x y h
  have hstatus := congrArg State.status h
  have hres := congrArg State.res h
  cases x with
  | ok r =>
    cases y with
    | ok r' => exact congrArg Except.ok hres
    | error k' => exact nomatch hstatus
  | error k =>
    cases y with
    | ok r' => exact nomatch hstatus
    | error k' => exact congrArg Except.error (Status.error.inj hstatus)

/-- A command of known outcome that succeeds has computed the results it leaves. -/
theorem eq_ok_of_exec {x : Except ErrKind Results} (h : exec i s = .next (succeed r s))
    (hx : exec i s = .next (finish s x)) : x = .ok r := by
  rw [hx, Host.Outcome.next.injEq] at h
  exact finish_injective s h

/-- A command that succeeds leaves one set of results. -/
theorem results_eq_of_exec {r' : Results} (h : exec i s = .next (succeed r s))
    (h' : exec i s = .next (succeed r' s)) : r' = r :=
  Except.ok.inj (eq_ok_of_exec (x := .ok r') h h')

/-- ENC succeeds with the words that encoding at a width `32k` gives (40_codec.md R108). -/
theorem encResult_ok {v : Nat} {bw : Int} (h : encResult c rom v bw = .ok r) :
    ∃ k, 0 < k ∧ r = { wout := some (encodeWords c rom v (32 * k)) } := by
  by_cases hbad : bw ≤ 0 ∨ bw % 32 ≠ 0
  · simp [encResult_of_badWidth hbad] at h
  · obtain ⟨k, rfl⟩ : ∃ k : Nat, bw = ((32 * k : Nat) : Int) := ⟨(bw / 32).toNat, by omega⟩
    have hk : 0 < k := by omega
    rw [encResult_of_width hk] at h
    exact ⟨k, hk, (Except.ok.inj h).symm⟩

/-- DEC succeeds with a value below its width `32k`, and its words are those that encoding the value gives (R119,
R121). -/
theorem decResult_ok {ws : List Token} (h : decResult c rom ws = .ok r) :
    ∃ e k, 0 < k ∧ r = { vout := some e, bwout := some (32 * k) } ∧ e < 2 ^ (32 * k) ∧ ws.length = 3 * k ∧
      encodeWords c rom e (32 * k) = ws := by
  cases hd : decodeWords c rom ws with
  | error k => simp [decResult_of_error hd] at h
  | ok p =>
    obtain ⟨e, ent⟩ := p
    obtain ⟨k, hk, rfl, hlen, he, hws⟩ := decodeWords_ok hd
    rw [decResult_of_ok hd] at h
    exact ⟨e, k, hk, (Except.ok.inj h).symm, he, hlen, hws⟩

/-- EncodeAuto encodes at some width `32k` (R111). -/
theorem encodeAuto_eq_encodeWords (c : Cfg) (rom : Rom) (v : Nat) :
    ∃ k, 0 < k ∧ encodeAuto c rom v = encodeWords c rom v (32 * k) := by
  obtain ⟨k, hk, hw, -⟩ := autoWidth_spec v
  exact ⟨k, hk, by rw [encodeAuto, hw]⟩

/-- Results in the form that the invariant asks for: those of one command, whose words, where there are any, are an
encoding at a width `32k`. -/
def ResultsWellFormed (rom : Rom) (r : Results) : Prop :=
  OneCommandsResults r ∧
    ∀ ws, r.wout = some ws → ∃ v k, 0 < k ∧ ws = encodeWords Config.cfg rom v (32 * k)

theorem validWidth_of_pos {k : Nat} (hk : 0 < k) : ValidWidth (32 * k) := ⟨by omega, by omega⟩

theorem resultsWellFormed_width {m : Nat} (h : ValidWidth m) : ResultsWellFormed rom { bwout := some m } :=
  ⟨.inr (.inl ⟨m, rfl, h⟩), nofun⟩

theorem resultsWellFormed_value {e k : Nat} (hk : 0 < k) (he : e < 2 ^ (32 * k)) :
    ResultsWellFormed rom { vout := some e, bwout := some (32 * k) } :=
  ⟨.inr (.inr (.inl ⟨e, 32 * k, rfl, validWidth_of_pos hk, he⟩)), nofun⟩

theorem resultsWellFormed_pattern32 (p : BitVec 32) : ResultsWellFormed rom { x32out := some p } :=
  ⟨.inr (.inr (.inr (.inl ⟨p, rfl⟩))), nofun⟩

theorem resultsWellFormed_pattern64 (p : BitVec 64) : ResultsWellFormed rom { x64out := some p } :=
  ⟨.inr (.inr (.inr (.inr (.inl ⟨p, rfl⟩)))), nofun⟩

theorem resultsWellFormed_words {v k : Nat} (hk : 0 < k) :
    ResultsWellFormed rom { wout := some (encodeWords Config.cfg rom v (32 * k)) } :=
  ⟨.inr (.inr (.inr (.inr (.inr ⟨_, rfl⟩)))), fun _ h => ⟨v, k, hk, (Option.some.inj h).symm⟩⟩

theorem resultsWellFormed_autoWords (rom : Rom) (v : Nat) :
    ResultsWellFormed rom { wout := some (encodeAuto Config.cfg rom v) } := by
  obtain ⟨k, hk, hwords⟩ := encodeAuto_eq_encodeWords Config.cfg rom v
  exact hwords ▸ resultsWellFormed_words hk

/-- A command of READY that succeeds leaves well-formed results. -/
theorem resultsWellFormed_of_exec (hs : s.phase = .ready regs) (hw : OperandsWritten i s)
    (h : exec i s = .next (succeed r s)) (hr : WritesExactly i r) : ResultsWellFormed regs.rom r := by
  cases i
  case rup32 =>
    obtain ⟨n, hv⟩ := Option.isSome_iff_exists.1 (hw .vin (by simp [Instr.reads]))
    obtain rfl := results_eq_of_exec h (exec_rup32 hs hv)
    exact resultsWellFormed_width (rup32_least_validWidth n).1
  case enc =>
    obtain ⟨v, hv⟩ := Option.isSome_iff_exists.1 (hw .vin (by simp [Instr.reads]))
    obtain ⟨bw, hb⟩ := Option.isSome_iff_exists.1 (hw .bwin (by simp [Instr.reads]))
    obtain ⟨k, hk, rfl⟩ := encResult_ok (eq_ok_of_exec h (exec_enc hs hv hb))
    exact resultsWellFormed_words hk
  case enca =>
    obtain ⟨v, hv⟩ := Option.isSome_iff_exists.1 (hw .vin (by simp [Instr.reads]))
    obtain rfl := results_eq_of_exec h (exec_enca hs hv)
    exact resultsWellFormed_autoWords ..
  case dec =>
    obtain ⟨ws, hws⟩ := winHolds_of_decoding (by simp) hw
    obtain ⟨e, k, hk, rfl, he, -⟩ := decResult_ok (eq_ok_of_exec h (exec_dec hs hws))
    exact resultsWellFormed_value hk he
  case obfencU32 | obfencS32 =>
    obtain ⟨x, hx⟩ := Option.isSome_iff_exists.1 (hw .x32in (by simp [Instr.reads]))
    obtain rfl := results_eq_of_exec h (obfenc32_ready hs _ _ hx)
    exact resultsWellFormed_autoWords ..
  case obfencU64 | obfencS64 =>
    obtain ⟨x, hx⟩ := Option.isSome_iff_exists.1 (hw .x64in (by simp [Instr.reads]))
    obtain rfl := results_eq_of_exec h (obfenc64_ready hs _ _ hx)
    exact resultsWellFormed_autoWords ..
  case obfU32 | obfS32 | deobfU32 | deobfS32 | decdeobfU32 | decdeobfS32 =>
    obtain ⟨p, rfl⟩ := hr
    exact resultsWellFormed_pattern32 p
  case obfU64 | obfS64 | deobfU64 | deobfS64 | decdeobfU64 | decdeobfS64 =>
    obtain ⟨p, rfl⟩ := hr
    exact resultsWellFormed_pattern64 p

/-! What keeps the invariant -/

/-- Well-formed results keep the memory's form: encoded words are a positive multiple of 3 words of the ROM
(20_memory.md R62). -/
theorem Memory.wf_of_results (hp : s.phase = .ready regs) (h : ResultsWellFormed regs.rom s.res) :
    Memory.wf s = true := by
  cases hw : s.res.wout with
  | none => exact Memory.wf_of_wout_none hw
  | some ws =>
    obtain ⟨v, k, hk, rfl⟩ := h.2 ws hw
    have hlen : (encodeWords Config.cfg regs.rom v (32 * k)).length = 3 * k := by simp [encodeWords_eq]
    refine Memory.wf_of_wout_some hp hw (by omega) (List.ne_nil_of_length_pos (by omega)) ?_
    rw [encodeWords_eq]
    exact wordsOf_mem _ _

/-- A state without results and with STATUS OK meets the invariant where its derived registers and its buffer do. -/
theorem inv_of_no_results (hregs : ∀ r, s.phase = .ready r → RegsSound r) (hstatus : s.status = .ok)
    (hres : s.res = {}) (hbuffer : s.ops.winlen = none → s.ops.win = []) : Safety.Inv s where
  regs := hregs
  errors _ := hres
  results := .inl hres
  quiet _ := ⟨hstatus, hres⟩
  memory := Memory.wf_of_wout_none (by rw [hres])
  buffer := hbuffer

/-- Settles O2: at reset no register holds a value. -/
theorem resetMeetsTheInvariant : Obligations.ResetMeetsTheInvariant :=
  inv_of_no_results nofun rfl rfl fun _ => rfl

/-- The invariant speaks of the block's registers alone, not of the host. -/
theorem inv_congr (hi : Safety.Inv s) (hops : t.ops = s.ops) (hstatus : t.status = s.status) (hres : t.res = s.res)
    (hphase : t.phase = s.phase) : Safety.Inv t where
  regs := by simpa only [hphase] using hi.regs
  errors := by simpa only [hstatus, hres] using hi.errors
  results := hres ▸ hi.results
  quiet := by simpa only [NotReady, hphase, hstatus, hres] using hi.quiet
  memory := (Memory.wf_congr hphase (by rw [hres])).trans hi.memory
  buffer := by simpa only [hops] using hi.buffer

/-- A command of READY that ends with an error, or an illegal byte there, keeps the invariant (60_exceptions.md
R195). -/
theorem inv_raise (k : ErrKind) (hs : s.phase = .ready regs) (hi : Safety.Inv s) : Safety.Inv (raise k s) where
  regs := hi.regs
  errors _ := rfl
  results := .inl rfl
  quiet h := absurd hs (h regs)
  memory := raise_memory_wf k s
  buffer := hi.buffer

/-- A command of READY that ends with well-formed results keeps the invariant (10_state.md R33). -/
theorem inv_succeed (hs : s.phase = .ready regs) (hr : ResultsWellFormed regs.rom r) (hi : Safety.Inv s) :
    Safety.Inv (succeed r s) where
  regs := hi.regs
  errors h := absurd rfl h
  results := hr.1
  quiet h := absurd hs (h regs)
  memory := Memory.wf_of_results (s := succeed r s) hs hr
  buffer := hi.buffer

/-- Every command keeps the invariant. -/
theorem inv_exec (hi : Safety.Inv s) (h : exec i s = .next t) : Safety.Inv t := by
  obtain ⟨-, rfl⟩ | ⟨regs, x, hs, hw, rfl, hx⟩ := exec_cases h
  · exact hi
  · cases x with
    | ok r => exact inv_succeed hs (resultsWellFormed_of_exec hs hw h hx) hi
    | error k => exact inv_raise k hs hi

theorem exists_ready (h : ¬ NotReady s) : ∃ regs, s.phase = .ready regs := by simpa [NotReady] using h

/-- An illegal byte keeps the invariant, in READY and outside it (30_encoding.md R86, 70_reset_and_hazards.md R221). -/
theorem inv_illegalByte (hi : Safety.Inv s) (h : illegalByte s = .next t) : Safety.Inv t := by
  by_cases hs : NotReady s
  · obtain rfl : s = t := by simpa [illegalByte_quiet hs] using h
    exact hi
  · obtain ⟨regs, hr⟩ := exists_ready hs
    obtain rfl : raise .illegalCommand s = t := by simpa [illegalByte_ready hr] using h
    exact inv_raise _ hr hi

theorem inv_runIssue {b : Byte} (hi : Safety.Inv s) (h : runIssue b s = .next t) : Safety.Inv t := by
  unfold runIssue at h
  split at h
  · exact inv_exec hi h
  · exact inv_illegalByte hi h

/-- A host read that has an answer changes no register (20_memory.md R65). -/
theorem inv_runRead {q : HostReg} (hi : Safety.Inv s) (h : runRead q s = .next t) : Safety.Inv t := by
  unfold runRead at h
  split at h <;> cases h
  exact inv_congr hi rfl rfl rfl rfl

/-- A write of WIN writes WINLEN with it, so the buffer has no entry without a count (30_encoding.md R93). -/
theorem writeOperand_buffer (w : OperandWrite) (h : s.ops.winlen = none → s.ops.win = []) :
    (s.writeOperand w).ops.winlen = none → (s.writeOperand w).ops.win = [] := by
  cases w with
  | vin | bwin | x32in | x64in => exact h
  | win | winlen => exact nofun

/-- A host write of an operand register keeps the invariant, in any phase (R42). -/
theorem inv_writeOperand (w : OperandWrite) (hi : Safety.Inv s) : Safety.Inv (s.writeOperand w) where
  regs := by simpa using hi.regs
  errors := by simpa using hi.errors
  results := by simpa using hi.results
  quiet := by simpa [NotReady] using hi.quiet
  memory := writeOperand_memory_wf w hi.memory
  buffer := writeOperand_buffer w hi.buffer

/-- Every line of a host program keeps the invariant. -/
theorem inv_runLine {l : HostLine} (hi : Safety.Inv s) (h : runLine l s = .next t) : Safety.Inv t := by
  cases l with
  | wr w =>
    cases h
    exact inv_writeOperand w hi
  | cmd i => exact inv_runIssue hi h
  | issue b => exact inv_runIssue hi h
  | rd q => exact inv_runRead hi h
  | ifNotOk label =>
    cases h
    split
    · exact hi
    · exact inv_congr hi rfl rfl rfl rfl
  | goto label =>
    cases h
    exact inv_congr hi rfl rfl rfl rfl
  | reset =>
    cases h
    exact inv_of_no_results nofun rfl rfl fun _ => rfl

/-- The registers that initialisation leaves in READY are sound, since READY asks for an odd `P` (R218, R219). -/
theorem initialPhase_sound {r : ConfigRegs} (h : initialPhase c = .ready r) : RegsSound r := by
  unfold initialPhase at h
  split at h
  · cases h
    exact derivedRegs_sound ‹_›
  · cases h

/-- Initialisation keeps the invariant: in phase RESET there is no result yet (R218). -/
theorem inv_initialise (c : Cfg) (hp : s.phase = .reset) (hi : Safety.Inv s) : Safety.Inv (initialise c s) := by
  obtain ⟨hstatus, hres⟩ := hi.quiet fun r => by simp [hp]
  exact inv_of_no_results (fun r => initialPhase_sound) hstatus hres hi.buffer

/-- Settles O3, by what the step is: initialisation, a line of the host, or nothing. -/
theorem stepKeepsTheInvariant : Obligations.StepKeepsTheInvariant := by
  intro s t hi h
  obtain hinit | ⟨l, hact⟩ | ⟨hp, hidle⟩ := step_kinds s
  · have hstep : step s = .next (initialise Config.cfg s) := stepOf_initialise _ hinit
    obtain rfl : initialise Config.cfg s = t := by simpa [hstep] using h
    exact inv_initialise _ hinit.1 hi
  · rw [step_line hact] at h
    exact inv_runLine (s := hostAt s _) (inv_congr hi rfl rfl rfl rfl) h
  · obtain rfl : s = t := by simpa [step_quiet hp hidle] using h
    exact hi

end Sys2Proof.Machine
end

section
/-! PROOFS. What commands leave of the Token spaces (20_memory.md R50), and how they end: with their own error kinds
(R192), always where their operands are written (R84), and by a fault where one is not (R47). -/

namespace Sys2Proof.Machine

open Sys2Proof.Safety

variable {s t : State} {i : Instr}

/-! The Token spaces -/

/-- A command that stores no words has no WOUT among its results (10_state.md R31). -/
theorem wout_eq_none_of_writesExactly {r : Results} (h : WritesExactly i r) (hi : storesWords i = false) :
    r.wout = none := by
  cases i
  case enc | enca | obfencU32 | obfencS32 | obfencU64 | obfencS64 => exact nomatch hi
  case dec =>
    obtain ⟨_, _, rfl⟩ := h
    rfl
  all_goals
    obtain ⟨_, rfl⟩ := h
    rfl

/-- The results that a command which stores no words ends with have no WOUT, whether it succeeds or fails. -/
theorem finish_wout_eq_none {x : Except ErrKind Results} (h : Leaves i x) (hi : storesWords i = false) :
    (finish s x).res.wout = none := by
  cases x with
  | ok r => exact wout_eq_none_of_writesExactly h hi
  | error k => rfl

@[simp] theorem finish_memRead_wrom (s : State) (x : Except ErrKind Results) (a : Nat) :
    (finish s x).memRead .wrom a = s.memRead .wrom a := by
  simp [State.memRead, State.entries]

@[simp] theorem finish_memRead_win (s : State) (x : Except ErrKind Results) (a : Nat) :
    (finish s x).memRead .win a = s.memRead .win a := by
  simp [State.memRead, State.entries]

theorem memRead_wout_of_none (h : s.res.wout = none) (a : Nat) : s.memRead .wout a = none := by
  simp [State.memRead, State.entries, h]

/-- Settles O14: a command changes nothing or ends by `finish`, which touches WOUT alone. -/
theorem commandsKeepMemory : Obligations.CommandsKeepMemory := by
  intro i s t h
  obtain ⟨hquiet, rfl⟩ | ⟨regs, x, hs, -, rfl, hx⟩ := exec_cases h
  · exact ⟨fun _ => rfl, fun _ => rfl, fun _ _ => rfl, fun hready => absurd hquiet hready⟩
  · exact ⟨finish_memRead_wrom s x, finish_memRead_win s x, fun hquiet => absurd hs (hquiet regs),
      fun _ hi => memRead_wout_of_none (finish_wout_eq_none hx hi)⟩

/-! How commands end -/

/-- Settles O17: a command of READY leaves an error kind in STATUS only if it may raise it. -/
theorem commandsEndWithTheirOwnKinds : Obligations.CommandsEndWithTheirOwnKinds :=
  fun _ _ _ _ _ hs h hstatus => mem_mayRaise_of_status hs h hstatus

/-- Settles O18: with its operands written a command of READY ends by `finish`. -/
theorem commandsEnd : Obligations.CommandsEnd := by
  intro i s regs hs hw
  obtain ⟨x, hx, -⟩ := exec_written hs hw
  exact ⟨finish s x, hx⟩

/-- Settles O19: the command's reads come before anything else it does, and one of them has no value. -/
theorem unwrittenOperandIsAFault : Obligations.UnwrittenOperandIsAFault :=
  fun _ _ _ hs hw => exec_unwritten hs hw

end Sys2Proof.Machine
end

section
/-! PROOFS. The host: what it reads, writes, issues and resets, where it goes, and the two faults that stop the machine
(30_encoding.md R93, 10_state.md R34, R47). -/

namespace Sys2Proof.Machine

open Sys2Proof.Safety

variable {s t : State} {i : Instr} {r : HostReg}

/-! Reads -/

/-- The host's place does not matter to what a read gives (log entry 5). -/
@[simp] theorem hostRead_hostAt (s : State) (n : Nat) (r : HostReg) : (hostAt s n).hostRead r = s.hostRead r := by
  cases r <;> rfl

/-- A read of a register that holds no value stops the machine (R34). -/
theorem runRead_of_none (h : s.hostRead r = none) : runRead r s = .fault (.readNoValue r) := by
  simp [runRead, h]

/-- Any other read gives the host the value. -/
theorem runRead_of_some {v : HostValue} (h : s.hostRead r = some v) : runRead r s = .next (s.receive v) := by
  simp [runRead, h]

/-- Where the host reads a register without a value, the step is the fault that names it. -/
theorem step_read_of_noValue (hact : HostActs s (.rd r)) (h : NoValue s r) : step s = .fault (.readNoValue r) := by
  rw [step_line hact]
  exact runRead_of_none ((hostRead_hostAt ..).trans ((hostRead_eq_none_iff s r).2 h))

/-- Where the host reads a register that answers a value, the host receives it and no register changes. -/
theorem step_read_of_some {v : HostValue} (hact : HostActs s (.rd r)) (h : s.hostRead r = some v) :
    step s = .next ((hostAt s (s.host.line + 1)).receive v) := by
  rw [step_line hact]
  exact runRead_of_some ((hostRead_hostAt ..).trans h)

/-- Settles O22: a read has no answer exactly where the register holds no value. -/
theorem hostReadOfNoValueIsAFault : Obligations.HostReadOfNoValueIsAFault := by
  refine fun s r hact => ⟨step_read_of_noValue hact, fun h => ?_⟩
  rw [← hostRead_eq_none_iff, ← ne_eq, Option.ne_none_iff_exists'] at h
  obtain ⟨v, hv⟩ := h
  exact ⟨v, step_read_of_some hact hv⟩

/-- A derived register holds its value in READY (10_state.md R42, R46). -/
theorem readDerived_of_ready {regs : ConfigRegs} (h : s.phase = .ready regs) (f : ConfigRegs → HostValue) :
    s.readDerived f = some (f regs) := by
  simp [State.readDerived, h]

/-- The words that WIN holds stand in the buffer, which may be longer (R24). -/
theorem length_le_of_winHolds {ws : List Token} (h : WinHolds s ws) : ws.length ≤ s.ops.win.length := by
  simpa using congrArg List.length h.2

/-- A read of the buffer gives the words that a decoding command would read (R24). -/
theorem hostRead_win {ws : List Token} (h : WinHolds s ws) : s.hostRead .win = some (.tokens ws) := by
  have hle := length_le_of_winHolds h
  obtain ⟨hn, hws⟩ := h
  simp [State.hostRead, hn, hle, hws]

/-- A read of a register gives the value that it holds, for every register and entry. -/
theorem hostRead_of_holdsValue {v : HostValue} (h : HoldsValue s v r) : s.hostRead r = some v := by
  cases r
  case status | phase => exact congrArg some (Eq.symm h)
  case vin | bwin | x32in | x64in | winlen | vout | bwout | x32out | x64out | wout | woutlen =>
    obtain ⟨a, ha, rfl⟩ := h
    simp [State.hostRead, ha]
  case win =>
    obtain ⟨ws, hws, rfl⟩ := h
    exact hostRead_win hws
  case winAt j =>
    obtain ⟨n, w, hn, hj, hw, rfl⟩ := h
    simp [State.hostRead, State.memRead, State.entries, hn, hj, hw]
  case woutAt j =>
    obtain ⟨ws, w, hws, hw, rfl⟩ := h
    simp [State.hostRead, State.memRead, State.entries, hws, hw]
  case pinv32 | pinv64 | pm32 | pm64 =>
    obtain ⟨regs, hs, rfl⟩ := h
    exact readDerived_of_ready hs _
  case xk k | ak k =>
    cases k <;> (obtain ⟨regs, hs, rfl⟩ := h; exact readDerived_of_ready hs _)
  case wromAt g =>
    obtain ⟨regs, hs, rfl⟩ | ⟨hs, rfl⟩ := h
    · simp [State.hostRead, memRead_wrom hs]
    · simp [State.hostRead, memRead_wrom_fatal hs]

/-- Settles O23: the host receives what the register it names holds. -/
theorem hostReadGivesTheValue : Obligations.HostReadGivesTheValue :=
  fun _ _ _ hact h => step_read_of_some hact (hostRead_of_holdsValue h)

/-! Writes, issues, jumps and resets -/

/-- Settles O24: a write ends in the state of `writeOperand`, which changes the operand file in one register. -/
theorem hostWriteReachesOneRegister : Obligations.HostWriteReachesOneRegister := by
  intro s w hact
  refine ⟨(hostAt s (s.host.line + 1)).writeOperand w, step_line hact, ?_⟩
  cases w <;> exact ⟨rfl, rfl⟩

/-- Settles O8: a command's byte decodes to the command. -/
theorem encodedCommandDecodesToItself : Obligations.EncodedCommandDecodesToItself :=
  fun i _ => (decode_eq_ok_iff _ i).2 rfl

/-- The issue of a command's byte executes the command (30_encoding.md R84). -/
theorem runIssue_of_decode {b : Byte} (h : decode b = .ok i) : runIssue b s = exec i s := by
  simp [runIssue, h]

/-- Settles O10: a byte runs the command it decodes to, and a mnemonic stands for its command's byte. -/
theorem stepRunsTheDecodedCommand : Obligations.StepRunsTheDecodedCommand :=
  ⟨fun _ _ _ hact hb => (step_line hact).trans (runIssue_of_decode hb),
    fun _ i hact => (step_line hact).trans (runIssue_of_decode ((decode_eq_ok_iff _ i).2 rfl))⟩

/-- Settles O25: a jump moves the host, and the conditional one does so where STATUS is not OK. -/
theorem hostBranches : Obligations.HostBranches := by
  refine ⟨fun s n hact => step_line hact, fun s n hact h => ?_, fun s n hact h => ?_⟩
  · rw [step_line hact]
    exact congrArg Host.Outcome.next (if_neg h)
  · rw [step_line hact]
    exact congrArg Host.Outcome.next (if_pos h)

/-- Settles O26: without a line the host does nothing, and no initialisation is due. -/
theorem blockIsQuiescent : Obligations.BlockIsQuiescent := fun _ hp hl => step_quiet hp hl

/-- Settles O7: the reset line ends in the block's reset values, in which no register or entry holds a value. -/
theorem hostResetsTheBlock : Obligations.HostResetsTheBlock := by
  intro s hact
  have hquiet : NotReady (resetBlock (hostAt s (s.host.line + 1))) := nofun
  exact ⟨_, step_line hact, rfl, rfl, rfl, rfl, memRead_eq_none_of_reset rfl rfl rfl,
    hostRead_derived_eq_none hquiet, hostRead_stage_eq_none hquiet⟩

/-- Settles O21: the codes of R190 and R38. -/
theorem statusAndPhaseCodes : Obligations.StatusAndPhaseCodes :=
  ⟨rfl, rfl, rfl, rfl, rfl, rfl, rfl, rfl, fun _ => rfl, rfl⟩

/-! The stops -/

/-- How an outcome may stop the machine: not at all, or as a fault that meets `p`. -/
def StopsOnlyBy (p : Fault → Prop) : Out → Prop
  | .next _ => True
  | .fault f => p f
  | .refused _ => False

/-- A fault that names an operand without a value, in READY (R47). -/
def UnwrittenInReady (s : State) : Fault → Prop
  | .unwrittenOperand q => Operands.written s.ops q = false ∧ ¬ NotReady s
  | .readNoValue _ => False

/-- The two faults of the host program, each with its condition (R34, R47). -/
def HostAtFault (s : State) : Fault → Prop
  | .unwrittenOperand q => Operands.written s.ops q = false ∧ ¬ NotReady s
  | .readNoValue q => HostActs s (.rd q) ∧ NoValue s q

theorem StopsOnlyBy.mono {p q : Fault → Prop} (hpq : ∀ f, p f → q f) {o : Out} (h : StopsOnlyBy p o) :
    StopsOnlyBy q o := by
  cases o with
  | next => trivial
  | fault f => exact hpq f h
  | refused => exact h

/-- A command stops only for an operand that it reads in READY and that holds no value. -/
theorem exec_stops (i : Instr) (s : State) : StopsOnlyBy (UnwrittenInReady s) (exec i s) := by
  by_cases hs : NotReady s
  · rw [exec_quiet hs]
    trivial
  · obtain ⟨regs, hr⟩ := exists_ready hs
    by_cases hw : OperandsWritten i s
    · obtain ⟨x, hx, -⟩ := exec_written hr hw
      rw [hx]
      trivial
    · obtain ⟨q, -, hq, hf⟩ := exec_unwritten hr hw
      rw [hf]
      exact ⟨hq, hs⟩

/-- An issued byte stops only as its command does; an illegal one never stops. -/
theorem runIssue_stops (b : Byte) (s : State) : StopsOnlyBy (UnwrittenInReady s) (runIssue b s) := by
  unfold runIssue
  split
  · exact exec_stops _ s
  · unfold illegalByte whenReady
    split <;> trivial

/-- A line stops only as an issued byte does, or as a read without an answer. -/
theorem step_line_stops {l : HostLine} (hact : HostActs s l) : StopsOnlyBy (HostAtFault s) (step s) := by
  have issue : ∀ b, StopsOnlyBy (HostAtFault s) (runIssue b (hostAt s (s.host.line + 1))) := fun b =>
    (runIssue_stops b _).mono fun f hf => by
      cases f with
      | unwrittenOperand q => exact hf
      | readNoValue q => exact hf.elim
  cases l with
  | cmd i => exact step_line hact ▸ issue _
  | issue b => exact step_line hact ▸ issue b
  | rd q =>
    by_cases hq : NoValue s q
    · rw [step_read_of_noValue hact hq]
      exact ⟨hact, hq⟩
    · obtain ⟨v, hv⟩ := (hostReadOfNoValueIsAFault s q hact).2 hq
      rw [hv]
      trivial
  | wr | ifNotOk | goto | reset =>
    rw [step_line hact]
    trivial

/-- A step stops only as one of the two faults of the host program. -/
theorem step_stops (s : State) : StopsOnlyBy (HostAtFault s) (step s) := by
  obtain hinit | ⟨l, hact⟩ | ⟨hp, hidle⟩ := step_kinds s
  · rw [step, stepOf_initialise _ hinit]
    trivial
  · exact step_line_stops hact
  · rw [step_quiet hp hidle]
    trivial

/-- Settles O27: each way in which a step could stop is a fault of the host program. -/
theorem stepStopsOnlyForTheHost : Obligations.StepStopsOnlyForTheHost := by
  intro s
  have hstops := step_stops s
  refine ⟨fun q h => ?_, fun q h => ?_, fun q h => ?_⟩
  all_goals
    rw [h] at hstops
    exact hstops

end Sys2Proof.Machine
end

section
/-! PROOFS. The codec as a bijection: the lookups, the groups and the frames are inverse to each other (20_memory.md
R55, 40_codec.md R105, R106), and ENC and DEC with them (R110, R116, R117, R121). -/

namespace Sys2Proof.Machine

open Sys2Proof.Safety

variable {s t : State} {regs : ConfigRegs} {c : Cfg} {rom : Rom} {ws : List Token}

/-! Lookups, groups and frames -/

/-- Settles O42: the reverse lookup answers exactly the entry that holds the Token. -/
theorem lookupsAreInverse : Obligations.LookupsAreInverse := by
  refine fun rom => ⟨romIndex_romWord rom, fun t g => (romIndex_eq_some_iff rom t g).1, fun t => ?_⟩
  simp [Option.eq_none_iff_forall_ne_some, romIndex_eq_some_iff]

/-- Settles O41: each group is a slice by definition, and join undoes the split and the split join. -/
theorem groupsAndJoinAreInverse : Obligations.GroupsAndJoinAreInverse := by
  refine ⟨fun t n i hi => ?_, fun t n ht => ?_, groups_join⟩
  · simp [groups, hi]
  · rw [join_groups, Nat.mod_eq_of_lt ht]

/-- Known words are the words of an index list (R107). -/
theorem indicesOf_of_known (h : ∀ t ∈ ws, ∃ g, romWord rom g = t) : ∃ gs, indicesOf rom ws = some gs := by
  rw [← Option.ne_none_iff_exists', ne_eq, indicesOf_eq_none_iff]
  rintro ⟨t, ht, hnone⟩
  obtain ⟨g, rfl⟩ := h t ht
  simp at hnone

/-- A frame has `33k` bits (30_encoding.md R89). -/
theorem frame_lt {e x k : Nat} (he : e < 2 ^ (32 * k)) (hx : x < 2 ^ k) : e * 2 ^ k + x < 2 ^ (11 * (3 * k)) := by
  calc e * 2 ^ k + x < (e + 1) * 2 ^ k := by rw [Nat.succ_mul]; omega
    _ ≤ 2 ^ (32 * k) * 2 ^ k := Nat.mul_le_mul_right _ he
    _ = 2 ^ (11 * (3 * k)) := by rw [← pow_add]; ring_nf

/-- Frames of `33k` bits with the same words are the same frame. -/
theorem frameWords_inj {a b k : Nat} (ha : a < 2 ^ (11 * (3 * k))) (hb : b < 2 ^ (11 * (3 * k)))
    (h : frameWords rom a k = frameWords rom b k) : a = b := by
  rw [frameWords_eq, frameWords_eq] at h
  have hgroups := (romWord_injective rom).list_map h
  simpa [join_groups, Nat.mod_eq_of_lt ha, Nat.mod_eq_of_lt hb] using congrArg join hgroups

/-- A frame determines its entropy and its checksum (40_codec.md R117). -/
theorem frame_parts_inj {e x e' x' k : Nat} (hx : x < 2 ^ k) (hx' : x' < 2 ^ k)
    (h : e * 2 ^ k + x = e' * 2 ^ k + x') : e = e' ∧ x = x' := by
  have hmod := congrArg (· % 2 ^ k) h
  simp only [Nat.mul_add_mod_self_right, Nat.mod_eq_of_lt hx, Nat.mod_eq_of_lt hx'] at hmod
  subst hmod
  exact ⟨Nat.eq_of_mul_eq_mul_right (by positivity) (Nat.add_right_cancel h), rfl⟩

/-- Settles O37: the join of the words' indices is the frame, and frames of one size with the same words are equal. -/
theorem knownWordsAreAFrame : Obligations.KnownWordsAreAFrame := by
  intro rom ws k hlen hk hknown
  obtain ⟨gs, hgs⟩ := indicesOf_of_known hknown
  obtain ⟨he, hframe⟩ := knownWords_frame hgs hlen
  refine ⟨(join gs / 2 ^ k, join gs % 2 ^ k), ⟨he, Nat.mod_lt _ (by positivity), ?_⟩, ?_⟩
  · rwa [Nat.div_add_mod']
  · rintro ⟨e, x⟩ ⟨he', hx', hframe'⟩
    have hjoin : e * 2 ^ k + x = join gs / 2 ^ k * 2 ^ k + join gs % 2 ^ k := by
      rw [Nat.div_add_mod']
      refine frameWords_inj (frame_lt he' hx') ?_ (hframe'.symm.trans hframe)
      rw [← Nat.div_add_mod' (join gs) (2 ^ k)]
      exact frame_lt he (Nat.mod_lt _ (by positivity))
    obtain ⟨rfl, rfl⟩ := frame_parts_inj hx' (Nat.mod_lt _ (by positivity)) hjoin
    rfl

/-! ENC and DEC -/

/-- Encoding at width `w` sees only the low `w` bits (R103). -/
theorem encodeWords_mod (c : Cfg) (rom : Rom) (v w : Nat) :
    encodeWords c rom (v % 2 ^ w) w = encodeWords c rom v w := by
  simp [encodeWords, entropy]

/-- Settles O32: at a valid width both commands succeed, and encoding sees only the low bits. -/
theorem encTruncates : Obligations.EncTruncates := by
  rintro s u regs v w hs hu ⟨hpos, hmod⟩ hv hv' hb hb'
  obtain ⟨k, rfl⟩ : ∃ k, w = 32 * k := ⟨w / 32, by omega⟩
  have hk : 0 < k := by omega
  refine ⟨_, exec_enc_of_width hs hv hb hk, ?_⟩
  rw [← encodeWords_mod]
  exact exec_enc_of_width hu hv' hb' hk

/-- Known words of a valid count do not end decoding with InvalidWord (R115, R116). -/
theorem decodeWords_ne_invalidWord (c : Cfg) (h0 : 0 < ws.length) (h3 : ws.length % 3 = 0)
    (hknown : ∀ t ∈ ws, ∃ g, romWord rom g = t) : decodeWords c rom ws ≠ .error .invalidWord := by
  obtain ⟨gs, hgs⟩ := indicesOf_of_known hknown
  obtain ⟨k, hlen⟩ : ∃ k, ws.length = 3 * k := ⟨ws.length / 3, by omega⟩
  rw [decodeWords_known c hgs hlen (by omega)]
  split <;> simp

/-- Settles O35: a bad count ends every decoding command alike, and DEC fails only with the kind that decoding fails
with. -/
theorem badCountIsInvalid : Obligations.BadCountIsInvalid := by
  intro s regs ws hs hw
  refine ⟨fun hbad => exec_decoding_of_error hs hw (decodeWords_badCount _ _ hbad), fun h0 h3 hknown => ?_⟩
  have hne := decodeWords_ne_invalidWord Config.cfg h0 h3 hknown
  cases hd : decodeWords Config.cfg regs.rom ws with
  | ok p => exact ⟨_, exec_dec_of_ok hs hw hd, nofun⟩
  | error k =>
    refine ⟨_, exec_decoding_of_error hs hw hd .dec List.mem_cons_self, fun hstatus => ?_⟩
    exact hne (hd.trans (congrArg Except.error (Status.error.inj hstatus)))

/-- A DEC that ends with STATUS OK has computed results. -/
theorem exec_dec_ok (hs : s.phase = .ready regs) (hw : WinHolds s ws) (h : exec .dec s = .next t)
    (hstatus : t.status = .ok) : ∃ r, decResult Config.cfg regs.rom ws = .ok r ∧ t = succeed r s := by
  obtain rfl : finish s _ = t := by simpa [exec_dec hs hw] using h
  cases hd : decResult Config.cfg regs.rom ws with
  | ok r => exact ⟨r, rfl, rfl⟩
  | error k => simp [hd] at hstatus

/-- Settles O40: the words that DEC accepts are those that encoding its answer gives, so ENC writes them again. -/
theorem decThenEncGivesTheWords : Obligations.DecThenEncGivesTheWords := by
  intro s regs ws t hs hw h hstatus
  obtain ⟨r, hr, rfl⟩ := exec_dec_ok hs hw h hstatus
  obtain ⟨e, k, hk, rfl, he, hlen, hws⟩ := decResult_ok hr
  exact ⟨e, k, rfl, hk, he, hlen, fun u hu hv hb => hws ▸ exec_enc_of_width hu hv hb hk⟩

end Sys2Proof.Machine
end

section
/-! PROOFS. The permutation engines as functions: bijections, with their fixed points, their stride and their reading of
signed values (42_permutation.md R146 to R152, R162 to R164). -/

namespace Sys2Proof.Machine

open Sys2Proof.Safety

variable {w : Nat} {pm pinv : BitVec w} {k : EngineConst w} {regs : ConfigRegs}

/-! Bijections -/

/-- A 32-bit permutation command undoes another where its function undoes the other's. -/
theorem permute32_inverse {f g : ConfigRegs → BitVec 32 → BitVec 32} (hgf : ∀ x, g regs (f regs x) = x) (s : State)
    (x : BitVec 32) (hs : s.phase = .ready regs) (hx : s.ops.x32in = some x) :
    ∃ y, permute32 f s = .next (done s { x32out := some y }) ∧
      ∀ u, u.phase = .ready regs → u.ops.x32in = some y → permute32 g u = .next (done u { x32out := some x }) := by
  refine ⟨_, permute32_ready hs f hx, fun u hu hy => ?_⟩
  rw [permute32_ready hu g hy, hgf]
  rfl

/-- A 64-bit permutation command undoes another where its function undoes the other's. -/
theorem permute64_inverse {f g : ConfigRegs → BitVec 64 → BitVec 64} (hgf : ∀ x, g regs (f regs x) = x) (s : State)
    (x : BitVec 64) (hs : s.phase = .ready regs) (hx : s.ops.x64in = some x) :
    ∃ y, permute64 f s = .next (done s { x64out := some y }) ∧
      ∀ u, u.phase = .ready regs → u.ops.x64in = some y → permute64 g u = .next (done u { x64out := some x }) := by
  refine ⟨_, permute64_ready hs f hx, fun u hu hy => ?_⟩
  rw [permute64_ready hu g hy, hgf]
  rfl

/-- Settles O47: with sound registers the two directions of an engine undo each other. -/
theorem scrambleAndUnscrambleAreInverse : Obligations.ScrambleAndUnscrambleAreInverse := by
  rintro regs ⟨h32, h64, -, -⟩
  simp only [List.forall_mem_cons, List.not_mem_nil, false_imp_iff, implies_true, and_true]
  exact ⟨⟨permute32_inverse (deobf_obf h32 regs.u32), permute32_inverse (obf_deobf h32 regs.u32),
      permute32_inverse (deobf_obf h32 regs.s32), permute32_inverse (obf_deobf h32 regs.s32)⟩,
    permute64_inverse (deobf_obf h64 regs.u64), permute64_inverse (obf_deobf h64 regs.u64),
    permute64_inverse (deobf_obf h64 regs.s64), permute64_inverse (obf_deobf h64 regs.s64)⟩

/-- An engine whose inverse register undoes its multiplier is a bijection (R152). -/
theorem obf_bijective (h : pm * pinv = 1) (k : EngineConst w) : Function.Bijective (obf pm k) :=
  Function.bijective_iff_has_inverse.2 ⟨deobf pinv k, deobf_obf h k, obf_deobf h k⟩

/-- Settles O48: with sound registers every engine has its backward function as inverse. -/
theorem enginesAreBijections : Obligations.EnginesAreBijections := by
  rintro regs ⟨h32, h64, -, -⟩
  exact ⟨obf_bijective h32 regs.u32, obf_bijective h32 regs.s32, obf_bijective h64 regs.u64, obf_bijective h64 regs.s64⟩

/-! Engines without stages -/

/-- Without XOR and add stages the forward function is the multiplication alone. -/
theorem obf_plain (hk : PlainEngine k) (x : BitVec w) : obf pm k x = x * pm := by
  obtain ⟨hxk, hak⟩ := hk
  rw [obf_no_xor hxk, hak]
  exact add_zero _

/-- The pattern 0 meets the two stages alone (R162 a). -/
theorem obf_zero (pm : BitVec w) (k : EngineConst w) : obf pm k 0 = k.xk + k.ak := by
  simp [obf]

/-- A pattern is its own product exactly where `2^w` divides it times the multiplier less one. -/
theorem mul_eq_self_iff (hpm : 0 < pm.toNat) (x : BitVec w) : x * pm = x ↔ 2 ^ w ∣ x.toNat * (pm.toNat - 1) := by
  rw [← BitVec.toNat_inj, BitVec.toNat_mul, Nat.mul_sub_one,
    ← Nat.modEq_iff_dvd' (Nat.le_mul_of_pos_right _ hpm), Nat.ModEq, Nat.mod_eq_of_lt x.isLt, eq_comm]

/-- Half the range is a fixed point of an odd multiplier (R162 b). -/
theorem twoPow_mul_odd (hw : 0 < w) (hpm : pm.toNat % 2 = 1) :
    BitVec.twoPow w (w - 1) * pm = BitVec.twoPow w (w - 1) := by
  have hhalf : (BitVec.twoPow w (w - 1)).toNat = 2 ^ (w - 1) :=
    (BitVec.toNat_twoPow ..).trans (Nat.mod_eq_of_lt (Nat.pow_lt_pow_right (by decide) (by omega)))
  have heven : 2 ∣ pm.toNat - 1 := by omega
  rw [mul_eq_self_iff (by omega), hhalf]
  calc 2 ^ w = 2 ^ (w - 1) * 2 := by rw [← pow_succ, Nat.sub_add_cancel hw]
    _ ∣ 2 ^ (w - 1) * (pm.toNat - 1) := Nat.mul_dvd_mul_left _ heven

/-- Where `2^j` is the largest power of two in `m`, the power `2^w` divides `n * m` exactly where `2^(w-j)`
divides `n`. -/
theorem two_pow_dvd_mul_iff {n m j : Nat} (hjw : j ≤ w) (hdvd : 2 ^ j ∣ m) (hndvd : ¬ 2 ^ (j + 1) ∣ m) :
    2 ^ w ∣ n * m ↔ 2 ^ (w - j) ∣ n := by
  obtain ⟨q, rfl⟩ := hdvd
  have hq : ¬ 2 ∣ q := fun h => hndvd (pow_succ 2 j ▸ Nat.mul_dvd_mul_left _ h)
  have hcoprime : Nat.Coprime (2 ^ (w - j)) q := ((Nat.Prime.coprime_iff_not_dvd Nat.prime_two).2 hq).pow_left _
  rw [mul_left_comm, ← pow_mul_pow_sub 2 hjw, Nat.mul_dvd_mul_iff_left (by positivity)]
  exact hcoprime.dvd_mul_right

/-- The fixed points of a plain engine are the multiples of `2^(w-j)` (R162 c). -/
theorem mul_eq_self_iff_dvd {j : Nat} (hpm : pm.toNat % 2 = 1) (hdvd : 2 ^ j ∣ pm.toNat - 1)
    (hndvd : ¬ 2 ^ (j + 1) ∣ pm.toNat - 1) (x : BitVec w) : x * pm = x ↔ 2 ^ (w - j) ∣ x.toNat := by
  have hne : pm.toNat - 1 ≠ 0 := fun h => hndvd (h ▸ dvd_zero _)
  have hjw : j < w := by
    rw [← Nat.pow_lt_pow_iff_right (a := 2) (by decide)]
    calc 2 ^ j ≤ pm.toNat - 1 := Nat.le_of_dvd (Nat.pos_of_ne_zero hne) hdvd
      _ < 2 ^ w := by omega
  rw [mul_eq_self_iff (by omega), two_pow_dvd_mul_iff hjw.le hdvd hndvd]

/-- Settles O49: 0 meets the stages alone, and a plain engine multiplies. -/
theorem fixedPointsOfAnEngine : Obligations.FixedPointsOfAnEngine := by
  refine fun w pm k hw hpm => ⟨obf_zero pm k, fun hk => ⟨?_, ?_, fun x hone => ?_, fun j hdvd hndvd x => ?_⟩⟩
  all_goals rw [obf_plain hk]
  · exact zero_mul pm
  · exact twoPow_mul_odd hw hpm
  · rw [hone]
    exact mul_one x
  · exact mul_eq_self_iff_dvd hpm hdvd hndvd x

/-- Settles O50: without the XOR stage the engine is linear up to its addend. -/
theorem constantStride : Obligations.ConstantStride := by
  intro w pm k x hxk
  rw [obf_no_xor hxk, obf_no_xor hxk]
  calc (x + 1) * pm + k.ak - (x * pm + k.ak) = pm := by ring

/-- Settles O51: the low half of a product is the product of the low halves, and the 32-bit multiplier is the low
half. -/
theorem widthsAgreeOnTheLowHalf : Obligations.WidthsAgreeOnTheLowHalf := by
  rintro regs ⟨-, -, hpm, -⟩ h32 h64 x
  rw [obfOfU64, obfOfU32, obf_plain h64, obf_plain h32, hpm, BitVec.setWidth_mul _ _ (by decide)]

/-! Signed readings -/

/-- The signed reading is two's complement (R9). -/
theorem toS_eq_toInt (hw : 0 < w) (p : BitVec w) : toS p = p.toInt := by
  have hpow : 2 ^ w = 2 * 2 ^ (w - 1) := by rw [← pow_succ', Nat.sub_add_cancel hw]
  have hhalf : p.toNat < 2 ^ (w - 1) ↔ 2 * p.toNat < 2 ^ w := by omega
  simp [toS, BitVec.toInt_eq_toNat_cond, hhalf]

/-- A signed value in range is read back from its pattern (R9). -/
theorem toS_toU (hw : 0 < w) {z : Int} (hlo : -2 ^ (w - 1) ≤ z) (hhi : z < 2 ^ (w - 1)) : toS (toU w z) = z := by
  rw [toS_eq_toInt hw]
  exact BitVec.toInt_ofInt_eq_self hw hlo hhi

/-- The product of a signed value's pattern reads as the signed product, reduced into the signed range (R148). -/
theorem toS_toU_mul (hw : 0 < w) (z : Int) (pm : BitVec w) : toS (toU w z * pm) = (z * pm.toNat).bmod (2 ^ w) := by
  rw [toS_eq_toInt hw, toU, BitVec.toInt_mul, BitVec.toInt_ofInt, BitVec.toInt_eq_toNat_bmod, Int.bmod_mul_bmod,
    Int.mul_bmod_bmod]

/-- Settles O52: the two readings are inverse, and a plain signed engine multiplies. -/
theorem signedEnginesReadTwosComplement : Obligations.SignedEnginesReadTwosComplement := by
  refine fun regs h32 h64 => ⟨fun z hlo hhi => ⟨toS_toU (by decide) hlo hhi, ?_⟩,
    fun z hlo hhi => ⟨toS_toU (by decide) hlo hhi, ?_⟩⟩
  · rw [obfOfS32, obf_plain h32, toS_toU_mul (by decide)]
  · rw [obfOfS64, obf_plain h64, toS_toU_mul (by decide)]

end Sys2Proof.Machine
end

section
/-! PROOFS. The composed commands against their parts: the width that OBFENC chooses, the round trip, and the two
compositions (43_composed.md R172, R182, R183). -/

namespace Sys2Proof.Machine

open Sys2Proof.Safety

variable {s u : State} {regs : ConfigRegs} {c : Cfg} {rom : Rom} {ws : List Token}

/-! The width -/

/-- EncodeAuto writes the 3 words of width 32 for a value below `2^32` (R112). -/
theorem encodeAuto_of_lt32 (c : Cfg) (rom : Rom) {v : Nat} (h : v < 2 ^ 32) :
    encodeAuto c rom v = frameWords rom (v * 2 + ck c 32 (bytesBE v 4)) 1 := by
  obtain ⟨k, hk, -, hleast, hwords⟩ := encodeAuto_eq_frameWords c rom v
  obtain rfl : k = 1 := le_antisymm (hleast 1 one_pos h) hk
  exact hwords

/-- EncodeAuto writes the 6 words of width 64 for a value from `2^32` and below `2^64` (R112). -/
theorem encodeAuto_of_lt64 (c : Cfg) (rom : Rom) {v : Nat} (h32 : ¬ v < 2 ^ 32) (h64 : v < 2 ^ 64) :
    encodeAuto c rom v = frameWords rom (v * 4 + ck c 64 (bytesBE v 8)) 2 := by
  obtain ⟨k, hk, hv, hleast, hwords⟩ := encodeAuto_eq_frameWords c rom v
  have hk1 : k ≠ 1 := by
    rintro rfl
    exact h32 hv
  obtain rfl : k = 2 := le_antisymm (hleast 2 two_pos h64) (by omega)
  exact hwords

/-- EncodeAuto of a 64-bit pattern writes 3 or 6 words (R172). -/
theorem encodeAuto_pattern64 (c : Cfg) (rom : Rom) (y : BitVec 64) :
    encodeAuto c rom y.toNat =
      if y.toNat < 2 ^ 32 then frameWords rom (y.toNat * 2 + ck c 32 (bytesBE y.toNat 4)) 1
      else frameWords rom (y.toNat * 4 + ck c 64 (bytesBE y.toNat 8)) 2 := by
  split
  · exact encodeAuto_of_lt32 c rom ‹_›
  · exact encodeAuto_of_lt64 c rom ‹_› y.isLt

/-- Settles O54: OBFENC stores EncodeAuto's words of a pattern, whose size decides the width. -/
theorem obfencWritesThreeOrSixWords : Obligations.ObfencWritesThreeOrSixWords := by
  constructor
  · intro s regs x hs hx
    simp only [List.forall_mem_cons, List.not_mem_nil, false_imp_iff, implies_true, and_true]
    exact ⟨encodeAuto_of_lt32 _ _ (obfOfU32 regs x).isLt ▸ obfenc32_ready hs _ obfOfU32 hx,
      encodeAuto_of_lt32 _ _ (obfOfS32 regs x).isLt ▸ obfenc32_ready hs _ obfOfS32 hx⟩
  · intro s regs x hs hx
    simp only [List.forall_mem_cons, List.not_mem_nil, false_imp_iff, implies_true, and_true]
    exact ⟨encodeAuto_pattern64 _ _ (obfOfU64 regs x) ▸ obfenc64_ready hs _ obfOfU64 hx,
      encodeAuto_pattern64 _ _ (obfOfS64 regs x) ▸ obfenc64_ready hs _ obfOfS64 hx⟩

/-! The round trip -/

/-- Decoding a value that is a pattern of `w` bits gives the pattern (R177). -/
theorem decodePattern_of_pattern {w ent : Nat} (y : BitVec w) (h : decodeWords c rom ws = .ok (y.toNat, ent)) :
    decodePattern w c rom ws = .ok y := by
  rw [decodePattern_of_ok w h, if_neg (Nat.not_le.2 y.isLt), BitVec.ofNat_toNat, BitVec.setWidth_eq]

/-- A 32-bit DECDEOBF of words that decode to a pattern gives the pattern unscrambled (R178, R179). -/
theorem decdeobf32_of_pattern {ent : Nat} (hs : s.phase = .ready regs) (hw : WinHolds s ws) (y : BitVec 32)
    (h : decodeWords Config.cfg regs.rom ws = .ok (y.toNat, ent)) (f : ConfigRegs → BitVec 32 → BitVec 32) :
    decdeobf32 Config.cfg f s = .next (succeed { x32out := some (f regs y) } s) := by
  rw [decdeobf32_ready hs _ f hw, decodePattern_of_pattern y h]
  rfl

/-- A 64-bit DECDEOBF of words that decode to a pattern gives the pattern unscrambled (R180, R181). -/
theorem decdeobf64_of_pattern {ent : Nat} (hs : s.phase = .ready regs) (hw : WinHolds s ws) (y : BitVec 64)
    (h : decodeWords Config.cfg regs.rom ws = .ok (y.toNat, ent)) (f : ConfigRegs → BitVec 64 → BitVec 64) :
    decdeobf64 Config.cfg f s = .next (succeed { x64out := some (f regs y) } s) := by
  rw [decdeobf64_ready hs _ f hw, decodePattern_of_pattern y h]
  rfl

/-- A 32-bit DECDEOBF undoes an OBFENC where its backward function undoes the forward one (R182). -/
theorem decdeobf32_obfenc32 {f g : ConfigRegs → BitVec 32 → BitVec 32} (hgf : ∀ x, g regs (f regs x) = x)
    (s : State) (x : BitVec 32) (hs : s.phase = .ready regs) (hx : s.ops.x32in = some x) :
    ∃ ws, obfenc32 Config.cfg f s = .next (done s { wout := some ws }) ∧
      ∀ u, u.phase = .ready regs → WinHolds u ws →
        decdeobf32 Config.cfg g u = .next (done u { x32out := some x }) := by
  refine ⟨_, obfenc32_ready hs _ f hx, fun u hu hw => ?_⟩
  rw [decdeobf32_of_pattern hu hw (f regs x) (decodeWords_encodeAuto ..) g, hgf]
  rfl

/-- A 64-bit DECDEOBF undoes an OBFENC where its backward function undoes the forward one (R182). -/
theorem decdeobf64_obfenc64 {f g : ConfigRegs → BitVec 64 → BitVec 64} (hgf : ∀ x, g regs (f regs x) = x)
    (s : State) (x : BitVec 64) (hs : s.phase = .ready regs) (hx : s.ops.x64in = some x) :
    ∃ ws, obfenc64 Config.cfg f s = .next (done s { wout := some ws }) ∧
      ∀ u, u.phase = .ready regs → WinHolds u ws →
        decdeobf64 Config.cfg g u = .next (done u { x64out := some x }) := by
  refine ⟨_, obfenc64_ready hs _ f hx, fun u hu hw => ?_⟩
  rw [decdeobf64_of_pattern hu hw (f regs x) (decodeWords_encodeAuto ..) g, hgf]
  rfl

/-- Settles O56: DEC's body undoes EncodeAuto, and with sound registers the engine's two directions undo each other. -/
theorem composedRoundTrip : Obligations.ComposedRoundTrip := by
  rintro regs ⟨h32, h64, -, -⟩
  simp only [List.forall_mem_cons, List.not_mem_nil, false_imp_iff, implies_true, and_true]
  exact ⟨⟨decdeobf32_obfenc32 (deobf_obf h32 regs.u32), decdeobf32_obfenc32 (deobf_obf h32 regs.s32)⟩,
    decdeobf64_obfenc64 (deobf_obf h64 regs.u64), decdeobf64_obfenc64 (deobf_obf h64 regs.s64)⟩

/-! The compositions -/

/-- A 32-bit OBFENC stores the words that ENCA stores of its OBF's result (R183). -/
theorem obfenc32_eq_enca {f : ConfigRegs → BitVec 32 → BitVec 32} {x y : BitVec 32} (hs : s.phase = .ready regs)
    (hu : u.phase = .ready regs) (hx : s.ops.x32in = some x)
    (h : permute32 f s = .next (done s { x32out := some y })) (hv : u.ops.vin = some y.toNat) :
    ∃ ws, obfenc32 Config.cfg f s = .next (done s { wout := some ws }) ∧
      exec .enca u = .next (done u { wout := some ws }) := by
  obtain rfl : f regs x = y := by simpa [permute32_ready hs f hx, succeed, done] using h
  exact ⟨_, obfenc32_ready hs _ f hx, exec_enca hu hv⟩

/-- A 64-bit OBFENC stores the words that ENCA stores of its OBF's result (R183). -/
theorem obfenc64_eq_enca {f : ConfigRegs → BitVec 64 → BitVec 64} {x y : BitVec 64} (hs : s.phase = .ready regs)
    (hu : u.phase = .ready regs) (hx : s.ops.x64in = some x)
    (h : permute64 f s = .next (done s { x64out := some y })) (hv : u.ops.vin = some y.toNat) :
    ∃ ws, obfenc64 Config.cfg f s = .next (done s { wout := some ws }) ∧
      exec .enca u = .next (done u { wout := some ws }) := by
  obtain rfl : f regs x = y := by simpa [permute64_ready hs f hx, succeed, done] using h
  exact ⟨_, obfenc64_ready hs _ f hx, exec_enca hu hv⟩

/-- Settles O57: both commands store EncodeAuto's words of the scrambled pattern read as unsigned. -/
theorem obfencIsObfThenEnca : Obligations.ObfencIsObfThenEnca := by
  intro s u regs hs hu
  simp only [List.forall_mem_cons, List.not_mem_nil, false_imp_iff, implies_true, and_true]
  exact ⟨⟨fun x y => obfenc32_eq_enca hs hu, fun x y => obfenc32_eq_enca hs hu⟩,
    fun x y => obfenc64_eq_enca hs hu, fun x y => obfenc64_eq_enca hs hu⟩

/-- A DEC that succeeds has words to decode, and its results are what decoding them gives (R119). -/
theorem decodeWords_of_exec_dec {e m : Nat} (hs : s.phase = .ready regs)
    (h : exec .dec s = .next (done s { vout := some e, bwout := some m })) :
    ∃ ws, WinHolds s ws ∧ decodeWords Config.cfg regs.rom ws = .ok (e, m) := by
  obtain ⟨hquiet, -⟩ | ⟨_, _, -, hwritten, -, -⟩ := exec_cases h
  · exact absurd hs (hquiet regs)
  · obtain ⟨ws, hw⟩ := winHolds_of_decoding (by simp) hwritten
    refine ⟨ws, hw, ?_⟩
    have hresult := eq_ok_of_exec h (exec_dec hs hw)
    cases hd : decodeWords Config.cfg regs.rom ws with
    | ok p => simpa [decResult_of_ok (e := p.1) (ent := p.2) hd, Prod.ext_iff] using hresult
    | error k => simp [decResult_of_error hd] at hresult

/-- Settles O58: the entropy that DEC gives is the pattern that DECDEOBF unscrambles and DEOBF reads. -/
theorem decdeobfIsDecThenDeobf : Obligations.DecdeobfIsDecThenDeobf := by
  intro s u regs e m hs hu h
  obtain ⟨ws, hw, hd⟩ := decodeWords_of_exec_dec hs h
  simp only [List.forall_mem_cons, List.not_mem_nil, false_imp_iff, implies_true, and_true]
  refine ⟨⟨?_, ?_⟩, ?_, ?_⟩ <;> rintro y rfl hy
  · exact ⟨_, decdeobf32_of_pattern hs hw y hd deobfOfU32, permute32_ready hu deobfOfU32 hy⟩
  · exact ⟨_, decdeobf32_of_pattern hs hw y hd deobfOfS32, permute32_ready hu deobfOfS32 hy⟩
  · exact ⟨_, decdeobf64_of_pattern hs hw y hd deobfOfU64, permute64_ready hu deobfOfU64 hy⟩
  · exact ⟨_, decdeobf64_of_pattern hs hw y hd deobfOfS64, permute64_ready hu deobfOfS64 hy⟩

end Sys2Proof.Machine
end
